-- ==== Sys2Proof/Word.lean ====
section
/-! DEFINITION. The word of the CORE (rule R11 of 00_scope.md): a 16-bit unsigned integer.
Every register and every entry of the round-key table is a whole word (R24, R55). The arithmetic on words
is the ALU's and stands in Machine/Alu.lean. -/

namespace Sys2Proof

/-- A word: "a 16-bit unsigned integer in the range 0 to 65535" (R11). -/
abbrev Word := BitVec 16

end Sys2Proof
end

