-- ==== Sys2Proof/Config.lean ====
section
/-! DEFINITION. The structural constants of rule R6 (fixed, never configurable), and the values the spec
leaves open: the contents of the registers that reset does not touch (R37, U1 of
93_implementation_defined.md) and the parameter CYCLES_PER_UOP (R7, R236). The open values are opaque: no
proof can see what they are, so whatever is proved holds for every choice of them. -/

namespace Sys2Proof.Config

/-- `N_STEPS` of R6. -/
def nSteps : Nat := 8
/-- `N_BRANCHES` of R6. -/
def nBranches : Nat := 2
/-- `ROUNDS_PER_STEPS` of R6. -/
def roundsPerStep : Nat := 3
/-- `N_GROUPS` of R6: `N_BRANCHES * N_STEPS + 1`. -/
def nGroups : Nat := 17
/-- `GROUP_WORDS` of R6: `2 * ROUNDS_PER_STEPS`. -/
def groupWords : Nat := 6
/-- `TABLE_WORDS` of R6: `N_GROUPS * GROUP_WORDS`; the flat word addresses are 0 to 101 (R51). -/
def tableWords : Nat := 102
/-- `BLOCK_BYTES` of R6, the value of BLKSZ (R32). -/
def blockBytes : Nat := 8
/-- `ROT_A_L` of R6. -/
def rotAL : Nat := 9
/-- `ROT_A_R` of R6. -/
def rotAR : Nat := 2
/-- `ROT_L2` of R6. -/
def rotL2 : Nat := 8

/-- FREE VALUE (U1; log 3). What word `a` of the round-key table holds when nothing has written it since
the reset numbered `n`. -/
opaque tableUnwritten : Nat → Nat → BitVec 16

/-- FREE VALUE (U1, U9; log 4). Word `i` of the block state `X` after the reset edge numbered `n`. -/
opaque xAfterReset : Nat → Nat → BitVec 16

/-- FREE VALUE (U1, U9; log 4). Word `i` of the key buffer `K` after the reset edge numbered `n`. -/
opaque kAfterReset : Nat → Nat → BitVec 16

/-- FREE VALUE (U1; log 4). `RSP_DATA` after the reset edge numbered `n`. -/
opaque rspDataAfterReset : Nat → BitVec 64

/-- The clock cycles a micro-operation with code `opc` takes, less one. Open: "any positive integer,
possibly different per micro-operation" (R7, R236, U12; log 1). -/
opaque extraCycles : Nat → Nat

/-- `CYCLES_PER_UOP` for the micro-operation code `opc`: a positive integer nothing else depends on (R236). -/
def cyclesPerUop (opc : Nat) : Nat := extraCycles opc + 1

end Sys2Proof.Config
end

