-- ==== Sys2Proof/Syntax.lean ====
section
/-! DEFINITION. The encoded operations of the CORE (30_encoding.md): the three formats of R80 and one
constructor of Instr for each of the 16 rows of spec/opcode_table.json. An operand of a command (`key_i`,
`blk_i`) is on a port and not in its code (R82), and the operands of an ALU function are not in its control
value (R88), so those constructors carry neither. -/

namespace Sys2Proof

/-- A branch index, 0 or 1 (R20): branch 0 is `(X[0], X[1])`, branch 1 is `(X[2], X[3])`. -/
inductive Branch where
  | zero
  | one
deriving DecidableEq, Repr

/-- The three kinds of encoded operation (R80). -/
inductive Format where
  /-- A command code: 2 bits, from the HOST to the sequencer. -/
  | cmd
  /-- A micro-operation word: 12 bits, from the sequencer to the datapath. -/
  | uop
  /-- An ALU control value: 6 bits, from the datapath to the word ALU. -/
  | alu
deriving DecidableEq, Repr

/-- An encoded operation with its format; each format has one fixed length (R80, R90). -/
inductive OpWord where
  | cmd (w : BitVec 2)
  | uop (w : BitVec 12)
  | alu (w : BitVec 6)
deriving DecidableEq, Repr

/-- One constructor per row of spec/opcode_table.json. -/
inductive Instr where
  /-- The reserved command code `00` (R81, R191). -/
  | illegal
  /-- Command `KEYEXP`, code `01` (R81, R174). -/
  | keyexp
  /-- Command `ENC`, code `10` (R81, R175). -/
  | enc
  /-- Command `DEC`, code `11` (R81, R175). -/
  | dec
  /-- Micro-operation `END` (R153). -/
  | endCmd
  /-- Micro-operation `KST g` (R120). -/
  | kst (g : Nat)
  /-- Micro-operation `KPERM c` (R121); `c` is carried in the `g` field (R87). -/
  | kperm (c : Nat)
  /-- Micro-operation `ARK g, r, b` (R150). -/
  | ark (g r : Nat) (b : Branch)
  /-- Micro-operation `A b` (R130). -/
  | a (b : Branch)
  /-- Micro-operation `AINV b` (R131). -/
  | ainv (b : Branch)
  /-- Micro-operation `L2` (R140). -/
  | l2
  /-- Micro-operation `L2INV` (R141). -/
  | l2inv
  /-- ALU function `ADD16` (R110). -/
  | add16
  /-- ALU function `SUB16` (R111). -/
  | sub16
  /-- ALU function `ROL16` by the amount of its control value (R112). -/
  | rol16 (amt : Nat)
  /-- ALU function `XOR16` (R113). -/
  | xor16
deriving DecidableEq, Repr

/-- The format an operation is encoded in (the "format" column of the opcode table). -/
def Instr.format : Instr → Format
  | .illegal => .cmd
  | .keyexp => .cmd
  | .enc => .cmd
  | .dec => .cmd
  | .endCmd => .uop
  | .kst _ => .uop
  | .kperm _ => .uop
  | .ark _ _ _ => .uop
  | .a _ => .uop
  | .ainv _ => .uop
  | .l2 => .uop
  | .l2inv => .uop
  | .add16 => .alu
  | .sub16 => .alu
  | .rol16 _ => .alu
  | .xor16 => .alu

/-- The format of an encoded operation. -/
def OpWord.format : OpWord → Format
  | .cmd _ => .cmd
  | .uop _ => .uop
  | .alu _ => .alu

end Sys2Proof
end

