-- ==== Sys2Proof/WellFormed.lean ====
section
/-! DEFINITION. The range constraints on an operation's fields (R84, R88, R98): a term outside them has no
encoding, and an encoding that would stand for it is reserved (R89). -/

namespace Sys2Proof

/-- A key group index: 0 to 16 (R84, R85). -/
def groupOk (g : Nat) : Bool := decide (g ≤ 16)

/-- A round counter of KPERM: 1 to 17 (R84, R87). -/
def counterOk (c : Nat) : Bool := decide (1 ≤ c) && decide (c ≤ 17)

/-- A round field of ARK: 0 to 2 (R84). -/
def roundOk (r : Nat) : Bool := decide (r ≤ 2)

/-- A rotation amount of an ALU control value: 0 to 15 (R88). -/
def amountOk (n : Nat) : Bool := decide (n ≤ 15)

/-- Every field of the operation is in the range the opcode table gives it (R98). -/
def Instr.wellFormed : Instr → Bool
  | .illegal => true
  | .keyexp => true
  | .enc => true
  | .dec => true
  | .endCmd => true
  | .kst g => groupOk g
  | .kperm c => counterOk c
  | .ark g r _ => groupOk g && roundOk r
  | .a _ => true
  | .ainv _ => true
  | .l2 => true
  | .l2inv => true
  | .add16 => true
  | .sub16 => true
  | .rol16 n => amountOk n
  | .xor16 => true

end Sys2Proof
end

