-- ==== Sys2Proof/Decode.lean ====
section
/-! DEFINITION. The decoder of the three formats, total on every word and refusing the reserved words of R89
by name; after it the encoder, written from the same tables (R81, R83, R84, R88); and the reading of a word
numbered as spec/opcode_table.json numbers it. -/

namespace Sys2Proof

/-- Why a word is reserved (R89). -/
inductive DecodeError where
  /-- A micro-operation code 8 to 15 (R84). -/
  | reservedOpc
  /-- `KST` or `ARK` with a group index 17 to 31. -/
  | groupOutOfRange
  /-- `KPERM` with a counter 0 or 18 to 31. -/
  | counterOutOfRange
  /-- `ARK` with round field 3. -/
  | roundOutOfRange
  /-- A micro-operation with a non-zero must-be-zero field. -/
  | fieldMustBeZero
  /-- An ALU control value other than ROL16's with `amt` not 0. -/
  | amountMustBeZero
deriving DecidableEq, Repr

/-- The branch a one-bit field names. -/
def Branch.ofBit (b : BitVec 1) : Branch := if b = 0#1 then .zero else .one

/-- The one-bit field of a branch. -/
def Branch.bit : Branch → BitVec 1
  | .zero => 0#1
  | .one => 1#1

/-- A branch index as a number. -/
def Branch.index : Branch → Nat
  | .zero => 0
  | .one => 1

/-- Field `opc`, bits `[11:8]` of a micro-operation word (R83). -/
def uopOpc (w : BitVec 12) : BitVec 4 := w.extractLsb' 8 4
/-- Field `g`, bits `[7:3]` (R83). -/
def uopG (w : BitVec 12) : BitVec 5 := w.extractLsb' 3 5
/-- Field `r`, bits `[2:1]` (R83). -/
def uopR (w : BitVec 12) : BitVec 2 := w.extractLsb' 1 2
/-- Field `b`, bit `[0]` (R83). -/
def uopB (w : BitVec 12) : BitVec 1 := w.extractLsb' 0 1

/-- The command code on `cmd_op_i` (R81): all four codes are commands, `00` the one that faults. -/
def decodeCmd (w : BitVec 2) : Instr :=
  match w.toNat with
  | 0 => .illegal
  | 1 => .keyexp
  | 2 => .enc
  | _ => .dec

/-- The micro-operation of a 12-bit word (R83, R84), the range constraints of R98 included. -/
def decodeUop (w : BitVec 12) : Except DecodeError Instr :=
  let g := uopG w
  let r := uopR w
  let b := uopB w
  match (uopOpc w).toNat with
  | 0 => if g = 0#5 ∧ r = 0#2 ∧ b = 0#1 then .ok .endCmd else .error .fieldMustBeZero
  | 1 =>
    if ¬(r = 0#2 ∧ b = 0#1) then .error .fieldMustBeZero
    else if groupOk g.toNat then .ok (.kst g.toNat) else .error .groupOutOfRange
  | 2 =>
    if ¬(r = 0#2 ∧ b = 0#1) then .error .fieldMustBeZero
    else if counterOk g.toNat then .ok (.kperm g.toNat) else .error .counterOutOfRange
  | 3 =>
    if groupOk g.toNat then
      if roundOk r.toNat then .ok (.ark g.toNat r.toNat (Branch.ofBit b)) else .error .roundOutOfRange
    else .error .groupOutOfRange
  | 4 => if g = 0#5 ∧ r = 0#2 then .ok (.a (Branch.ofBit b)) else .error .fieldMustBeZero
  | 5 => if g = 0#5 ∧ r = 0#2 then .ok (.ainv (Branch.ofBit b)) else .error .fieldMustBeZero
  | 6 => if g = 0#5 ∧ r = 0#2 ∧ b = 0#1 then .ok .l2 else .error .fieldMustBeZero
  | 7 => if g = 0#5 ∧ r = 0#2 ∧ b = 0#1 then .ok .l2inv else .error .fieldMustBeZero
  | _ => .error .reservedOpc

/-- The ALU function of a 6-bit control value `{fn[1:0], amt[3:0]}` (R88). -/
def decodeAlu (w : BitVec 6) : Except DecodeError Instr :=
  let fn : BitVec 2 := w.extractLsb' 4 2
  let amt : BitVec 4 := w.extractLsb' 0 4
  match fn.toNat with
  | 0 => if amt = 0#4 then .ok .add16 else .error .amountMustBeZero
  | 1 => if amt = 0#4 then .ok .sub16 else .error .amountMustBeZero
  | 2 => .ok (.rol16 amt.toNat)
  | _ => if amt = 0#4 then .ok .xor16 else .error .amountMustBeZero

/-- The operation an encoded word stands for, or why the word is reserved (R89). -/
def decode : OpWord → Except DecodeError Instr
  | .cmd w => .ok (decodeCmd w)
  | .uop w => decodeUop w
  | .alu w => decodeAlu w

/-- A micro-operation word from its four fields (R83). -/
def uopWord (opc : BitVec 4) (g : BitVec 5) (r : BitVec 2) (b : BitVec 1) : BitVec 12 := opc ++ g ++ r ++ b

/-- An ALU control value from its two fields (R88). -/
def aluWord (fn : BitVec 2) (amt : BitVec 4) : BitVec 6 := fn ++ amt

/-- The word of an operation, by the tables of R81, R84 and R88; for a well-formed operation no bit of a
field is lost. -/
def encode : Instr → OpWord
  | .illegal => .cmd 0b00#2
  | .keyexp => .cmd 0b01#2
  | .enc => .cmd 0b10#2
  | .dec => .cmd 0b11#2
  | .endCmd => .uop (uopWord 0x0#4 0#5 0#2 0#1)
  | .kst g => .uop (uopWord 0x1#4 (BitVec.ofNat 5 g) 0#2 0#1)
  | .kperm c => .uop (uopWord 0x2#4 (BitVec.ofNat 5 c) 0#2 0#1)
  | .ark g r b => .uop (uopWord 0x3#4 (BitVec.ofNat 5 g) (BitVec.ofNat 2 r) b.bit)
  | .a b => .uop (uopWord 0x4#4 0#5 0#2 b.bit)
  | .ainv b => .uop (uopWord 0x5#4 0#5 0#2 b.bit)
  | .l2 => .uop (uopWord 0x6#4 0#5 0#2 0#1)
  | .l2inv => .uop (uopWord 0x7#4 0#5 0#2 0#1)
  | .add16 => .alu (aluWord 0b00#2 0#4)
  | .sub16 => .alu (aluWord 0b01#2 0#4)
  | .rol16 n => .alu (aluWord 0b10#2 (BitVec.ofNat 4 n))
  | .xor16 => .alu (aluWord 0b11#2 0#4)

/-- A word of the opcode table with its format told from its width (log 10). The table's widths are 2
(CMD), 12 (UOP) and 6 (ALU); in whole bytes CMD and ALU are both 8, and there a number below 4 is read as
a command code, any other below 64 as an ALU control value. Bits above the format's width must be 0. -/
def wordOfTable (nbits w : Nat) : Option OpWord :=
  if nbits = 2 then (if w < 4 then some (.cmd (BitVec.ofNat 2 w)) else none)
  else if nbits = 6 then (if w < 64 then some (.alu (BitVec.ofNat 6 w)) else none)
  else if nbits = 12 ∨ nbits = 16 then (if w < 4096 then some (.uop (BitVec.ofNat 12 w)) else none)
  else if nbits = 8 then
    (if w < 4 then some (.cmd (BitVec.ofNat 2 w))
     else if w < 64 then some (.alu (BitVec.ofNat 6 w)) else none)
  else none

/-- The operation the decoder reads from a word numbered as spec/opcode_table.json numbers it. -/
def decodeTableWord (nbits w : Nat) : Option Instr :=
  match wordOfTable nbits w with
  | none => none
  | some o =>
    match decode o with
    | .ok i => some i
    | .error _ => none

end Sys2Proof
end

