-- ==== Sys2Proof/Machine/State.lean ====
section
/-! DEFINITION. The state of the CORE: every register of 10_state.md (R20 to R31; BLKSZ of R32 is a constant
output, see Machine/Flags.lean), the round-key table as its one memory (R22, R50), and the model's own
fields, which no rule names: the HOST's coming port values, an internal control word placed from outside the
micro-programs, the ALU's operand and result nets, and the number of resets seen. -/

namespace Sys2Proof.Machine

/-- The block state `X` (R20): four words. -/
structure Block where
  x0 : Word
  x1 : Word
  x2 : Word
  x3 : Word
deriving DecidableEq, Repr

/-- The key buffer `K` (R21): eight words. -/
structure KeyBuf where
  k0 : Word
  k1 : Word
  k2 : Word
  k3 : Word
  k4 : Word
  k5 : Word
  k6 : Word
  k7 : Word
deriving DecidableEq, Repr

/-- `OP` (R25): the command in execution. Two bits, all four values used. -/
inductive Op where
  /-- `00`: no command is executing. -/
  | idle
  /-- `01`. -/
  | keyexp
  /-- `10`. -/
  | enc
  /-- `11`. -/
  | dec
deriving DecidableEq, Repr

/-- The round-key table `RK` as a memory of words at flat addresses 0 to 101 (R50, R51; log 15): the words
written since the last reset, at strictly rising addresses. An address that is not listed holds a free value
(log 3), so there is no entry that could be left out for being equal to it. -/
abbrev Memory := List (Nat × Word)

/-- The values on the input ports at one rising clock edge (R170). -/
structure Ports where
  /-- `rst_i`. -/
  rst : Bool
  /-- `cmd_valid_i`. -/
  cmdValid : Bool
  /-- `cmd_op_i`. -/
  cmdOp : BitVec 2
  /-- `key_i`. -/
  key : BitVec 128
  /-- `blk_i`. -/
  blk : BitVec 64
deriving DecidableEq, Repr

/-- The HOST presents nothing (log 6). -/
def Ports.quiet : Ports := { rst := false, cmdValid := false, cmdOp := 0#2, key := 0#128, blk := 0#64 }

/-- The word ALU's nets (log 8): its two operands and its result. They are not registers of the CORE
(R24, R36) and no register depends on them. -/
structure AluNets where
  a : Word
  b : Word
  y : Word
deriving DecidableEq, Repr

/-- The machine's state. -/
structure State where
  /-- Block state `X` (R20). -/
  x : Block
  /-- Key buffer `K` (R21). -/
  k : KeyBuf
  /-- Round-key table `RK` (R22, R50). -/
  rk : Memory
  /-- `OP` (R25). -/
  op : Op
  /-- `UPC` (R28), 7 bits. -/
  upc : BitVec 7
  /-- `KEY_VALID` (R27). -/
  keyValid : Bool
  /-- `RSP_VALID` (R29). -/
  rspValid : Bool
  /-- `RSP_ERR` (R30): `00` OK, `01` ILLEGAL_CMD, `10` NO_KEY. -/
  rspErr : BitVec 2
  /-- `RSP_DATA` (R31). -/
  rspData : BitVec 64
  /-- MODEL'S OWN (log 6). What the HOST drives on the input ports at the coming edges, the next first;
  past its end the HOST presents nothing. -/
  host : List Ports
  /-- MODEL'S OWN (log 9). A control word given to the datapath from outside the micro-programs; `none` in
  every run of the hardware. -/
  direct : Option OpWord
  /-- MODEL'S OWN (log 8). The ALU's operand and result nets. -/
  alu : AluNets
  /-- MODEL'S OWN (log 5). How many reset edges have been seen: the index of the free values. -/
  resets : Nat
deriving DecidableEq, Repr

/-- What stops the machine. -/
inductive Fault where
  /-- Raised by `step` when `OP` is not `00` and `uprog(OP, UPC)` is not defined: "For `OP = 00` and for `UPC`
  outside the stated range the function is not defined and is never evaluated" (R91). Safe: no run reaches
  such a state (R28), and the machine stops where the spec gives it nothing to do (log 13). -/
  | noMicroOperation
deriving DecidableEq, Repr

/-- What has no meaning. -/
inductive Refusal where
  /-- Raised by no arm of exec: every instruction of the opcode table has its meaning. Safe. -/
  | notModelled (mnemonic : String)
  /-- Raised by `step` for a reserved micro-operation word or ALU control value, and by a meaning given a
  field value that only a reserved word could carry: "A model's decoder for these formats must refuse a
  reserved value and must not give it a meaning" (R89, U4). Safe (log 14). -/
  | reserved (why : DecodeError)
deriving DecidableEq, Repr

/-- The machine right after reset (R37, R221). `X`, `K` and `RSP_DATA` are "unspecified (not reset)": the
model names 0 for them (log 2, DESIGN CHOICE, unsafe); `RK` lists nothing, so its words are free values
(log 3). The HOST presents nothing until something is put on `host` (log 6, log 11). -/
def State.reset : State where
  x := { x0 := 0, x1 := 0, x2 := 0, x3 := 0 }
  k := { k0 := 0, k1 := 0, k2 := 0, k3 := 0, k4 := 0, k5 := 0, k6 := 0, k7 := 0 }
  rk := []
  op := .idle
  upc := 0
  keyValid := false
  rspValid := false
  rspErr := 0
  rspData := 0
  host := []
  direct := none
  alu := { a := 0, b := 0, y := 0 }
  resets := 0

end Sys2Proof.Machine
end

