-- ==== Sys2Proof/Machine/Alu.lean ====
section
/-! DEFINITION. The 16-bit word ALU (40_word_alu.md): its four pure functions and the right rotation written
with them. "The result of every ALU function is reduced to 16 bits before it is used by the next" (R116). -/

namespace Sys2Proof.Machine

/-- `ADD16(a, b) = (a + b) mod 65536`; the carry is recorded nowhere (R110, R34). -/
def add16 (a b : Word) : Word := a + b

/-- `SUB16(a, b) = (a - b) mod 65536`; the borrow is recorded nowhere (R111, R34). -/
def sub16 (a b : Word) : Word := a - b

/-- `ROL16(a, n)`, with `m = n mod 16`: `a` if `m = 0`, else `((a << m) mod 65536) | (a >> (16 - m))` (R112). -/
def rol16 (a : Word) (n : Nat) : Word :=
  let m := n % 16
  if m = 0 then a else (a <<< m) ||| (a >>> (16 - m))

/-- `XOR16(a, b)` (R113). -/
def xor16 (a b : Word) : Word := a ^^^ b

/-- `ROR16 a, n` is written for `ROL16 a, (16 - (n mod 16)) mod 16` (R114). -/
def ror16 (a : Word) (n : Nat) : Word := rol16 a ((16 - n % 16) % 16)

end Sys2Proof.Machine
end

