-- ==== Sys2Proof/Machine/Operands.lean ====
section
/-! DEFINITION. Operand forms: the words of the wide ports (R56 to R58), the branches of the block state
(R20), and the operand assembly of the micro-operations (R85 to R87) with the flat addresses of the table
(R51). The CORE has no other operand forms (R97). -/

namespace Sys2Proof.Machine

/-- Key word `i` of the key port: `key_i[127 - 16i : 112 - 16i]` (R57). -/
def keyWord (key : BitVec 128) (i : Nat) : Word := key.extractLsb' (112 - 16 * i) 16

/-- Block word `i` of a block port: `blk_i[63 - 16i : 48 - 16i]` (R58). -/
def blkWord (blk : BitVec 64) (i : Nat) : Word := blk.extractLsb' (48 - 16 * i) 16

/-- The eight key words of `key_i` (R57, R174). -/
def keyOfPort (key : BitVec 128) : KeyBuf where
  k0 := keyWord key 0
  k1 := keyWord key 1
  k2 := keyWord key 2
  k3 := keyWord key 3
  k4 := keyWord key 4
  k5 := keyWord key 5
  k6 := keyWord key 6
  k7 := keyWord key 7

/-- The four block words of `blk_i` (R58, R175). -/
def blockOfPort (blk : BitVec 64) : Block where
  x0 := blkWord blk 0
  x1 := blkWord blk 1
  x2 := blkWord blk 2
  x3 := blkWord blk 3

/-- `X[0] || X[1] || X[2] || X[3]`, the layout of `blk_o` (R58, R153). -/
def portOfBlock (x : Block) : BitVec 64 := x.x0 ++ x.x1 ++ x.x2 ++ x.x3

/-- Branch `b` of the block state: `(X[2b], X[2b+1])` (R13, R20). -/
def Block.branch (x : Block) : Branch → Word × Word
  | .zero => (x.x0, x.x1)
  | .one => (x.x2, x.x3)

/-- Writes branch `b` of the block state; the other branch stays (R133). -/
def Block.setBranch (x : Block) (b : Branch) (v : Word × Word) : Block :=
  match b with
  | .zero => { x with x0 := v.1, x1 := v.2 }
  | .one => { x with x2 := v.1, x3 := v.2 }

/-- Key word `j` of the buffer, `K[j]` (R13). -/
def KeyBuf.word (k : KeyBuf) (j : Nat) : Word :=
  match j with
  | 0 => k.k0
  | 1 => k.k1
  | 2 => k.k2
  | 3 => k.k3
  | 4 => k.k4
  | 5 => k.k5
  | 6 => k.k6
  | _ => k.k7

/-- The six words of the buffer that KST stores, `K[0..5]` (R120). -/
def KeyBuf.storedWords (k : KeyBuf) : List Word := [k.k0, k.k1, k.k2, k.k3, k.k4, k.k5]

/-- The flat word address of `RK[g][j]`: `6*g + j` (R51). -/
def tableAddr (g j : Nat) : Nat := Config.groupWords * g + j

/-- The group index the sequencer forms for step `s` and branch `b`: `2s + b` (R85). -/
def roundGroup (s b : Nat) : Nat := Config.nBranches * s + b

/-- The whitening group, 16: `N_BRANCHES*N_STEPS` (R85). -/
def whiteningGroup : Nat := Config.nBranches * Config.nSteps

/-- The counter of KPERM as a word: the field zero-extended to 16 bits (R87). -/
def counterWord (c : Nat) : Word := BitVec.ofNat 16 c

end Sys2Proof.Machine
end

