-- ==== Sys2Proof/Machine/Flags.lean ====
section
/-! DEFINITION. Flags. The ALU has none: carry, borrow, zero, sign and overflow exist nowhere (R34). "The
status bits KEY_VALID, RSP_VALID, RSP_ERR and the derived BUSY are the only flags of the CORE" (R34); here
are the output ports, plain functions of the registers (R26, R171), and the fault codes of R190. -/

namespace Sys2Proof.Machine

/-- The code a command has on `cmd_op_i` and in `OP` (R25, R81). -/
def Op.code : Op → BitVec 2
  | .idle => 0b00#2
  | .keyexp => 0b01#2
  | .enc => 0b10#2
  | .dec => 0b11#2

/-- `BUSY`: not a register but the value `OP != 00` (R26). -/
def State.busy (s : State) : Bool := s.op != .idle

/-- `cmd_ready_o = (OP = 00)` (R171). -/
def State.cmdReadyO (s : State) : Bool := s.op == .idle
/-- `busy_o = (OP != 00)` (R171). -/
def State.busyO (s : State) : Bool := s.busy
/-- `key_valid_o` (R171). -/
def State.keyValidO (s : State) : Bool := s.keyValid
/-- `rsp_valid_o` (R171). -/
def State.rspValidO (s : State) : Bool := s.rspValid
/-- `rsp_err_o` (R171). -/
def State.rspErrO (s : State) : BitVec 2 := s.rspErr
/-- `blk_o` (R171). -/
def State.blkO (s : State) : BitVec 64 := s.rspData
/-- `blksz_o`: the constant `BLKSZ = 8` (R32, R180), whatever the state. -/
def State.blkszO (_ : State) : BitVec 4 := BitVec.ofNat 4 Config.blockBytes

/-- Fault code OK (R190). -/
def errOk : BitVec 2 := 0b00#2
/-- Fault code ILLEGAL_CMD (R190). -/
def errIllegalCmd : BitVec 2 := 0b01#2
/-- Fault code NO_KEY (R190). -/
def errNoKey : BitVec 2 := 0b10#2

end Sys2Proof.Machine
end

