-- ==== Sys2Proof/Machine/Ops.lean ====
section
/-! DEFINITION. The named operations: over the round-key table (R50 to R53), over the registers, the
response to a fault (R193, the CORE's only form of trap entry), the start and the end of a command, and the
reset edge (R220). There is no return from a fault: "There is no trap handler, no return-from-trap
instruction, no saved program counter or status" (R197). -/

namespace Sys2Proof.Machine

/-! ### The round-key table -/

/-- The listed addresses are at least `lo`, strictly rising, and exist (0 to 101, R51). -/
def Memory.risingFrom : Nat → Memory → Bool
  | _, [] => true
  | lo, c :: m => decide (lo ≤ c.1) && decide (c.1 < Config.tableWords) && Memory.risingFrom (c.1 + 1) m

/-- The canonical form of the table's memory. -/
def Memory.wf (m : Memory) : Bool := Memory.risingFrom 0 m

/-- The word listed at address `a`, if one is. -/
def Memory.lookup : Memory → Nat → Option Word
  | [], _ => none
  | c :: m, a => if c.1 = a then some c.2 else Memory.lookup m a

/-- Address `a` has been written since the last reset. -/
def Memory.lists (m : Memory) (a : Nat) : Bool := (m.lookup a).isSome

/-- Writes the word at address `a`, keeping the canonical form. -/
def Memory.store : Memory → Nat → Word → Memory
  | [], a, w => [(a, w)]
  | c :: m, a, w =>
    if a < c.1 then (a, w) :: c :: m
    else if a = c.1 then (a, w) :: m
    else c :: Memory.store m a w

/-- `MemWrite(addr, n, v)`: writes the words to consecutive addresses, lowest first (R14, R52). -/
def Memory.memWrite : Memory → Nat → List Word → Memory
  | m, _, [] => m
  | m, a, w :: ws => Memory.memWrite (m.store a w) (a + 1) ws

/-- What an address that is not listed reads as: the free value of the last reset (log 3). -/
def State.unwritten (s : State) (a : Nat) : Word := Config.tableUnwritten s.resets a

/-- The word at flat address `a`, `MemRead(a, 1)` (R14). Reading changes nothing (R61). -/
def State.tableWord (s : State) (a : Nat) : Word :=
  match s.rk.lookup a with
  | some w => w
  | none => s.unwritten a

/-- `RK[g][j]` (R13, R51). -/
def State.rkWord (s : State) (g j : Nat) : Word := s.tableWord (tableAddr g j)

/-! ### The registers -/

/-- Writes all four words of `X`. -/
def State.setX (s : State) (x : Block) : State := { s with x := x }
/-- Writes all eight words of `K`. -/
def State.setK (s : State) (k : KeyBuf) : State := { s with k := k }
/-- `RK[g][0..5] <- ws` at flat addresses `6g` to `6g+5` (R52). -/
def State.storeGroup (s : State) (g : Nat) (ws : List Word) : State :=
  { s with rk := s.rk.memWrite (tableAddr g 0) ws }
/-- `UPC <- UPC + 1`, the last line of every micro-operation but END (R159). UPC has 7 bits (R28; log 19). -/
def State.nextUop (s : State) : State := { s with upc := s.upc + 1 }
/-- Drives the ALU's result net (log 8). -/
def State.setAluY (s : State) (y : Word) : State := { s with alu := { s.alu with y := y } }

/-! ### Commands, responses and reset -/

/-- The fault response, TAKING AN EXCEPTION on this hardware: `RSP_ERR <- code`, `RSP_VALID <- 1` "and nothing
else" (R193). No state is saved and control goes nowhere. -/
def State.faultResponse (s : State) (code : BitVec 2) : State :=
  { s with rspErr := code, rspValid := true }

/-- The lines common to every acceptance that starts a command: `RSP_VALID <- 0`, `OP <- op`, `UPC <- 0`
(R174, R175). -/
def State.startCommand (s : State) (op : Op) : State :=
  { s with rspValid := false, op := op, upc := 0 }

/-- The registers END writes (R153). -/
def State.endCommand (s : State) : State :=
  { s with
    keyValid := (if s.op = .keyexp then true else s.keyValid)
    rspData := (if s.op = .enc ∨ s.op = .dec then portOfBlock s.x else s.rspData)
    rspErr := errOk
    rspValid := true
    op := .idle
    upc := 0 }

/-- What a presented command does at an edge: it is accepted if the CORE is ready, and while it is busy "it
simply has not happened" (R172, R173; log 12). -/
def State.onAcceptance (s : State) (accept : State → State) : Host.Outcome State Fault Refusal :=
  if s.op = .idle then .next (accept s) else .next s

/-- Registers that reset leaves unspecified take free values, numbered by the reset (U1, U9; log 4). -/
def State.forgetData (s : State) : State :=
  let n := s.resets + 1
  { s with
    x :=
      { x0 := Config.xAfterReset n 0, x1 := Config.xAfterReset n 1
        x2 := Config.xAfterReset n 2, x3 := Config.xAfterReset n 3 }
    k :=
      { k0 := Config.kAfterReset n 0, k1 := Config.kAfterReset n 1
        k2 := Config.kAfterReset n 2, k3 := Config.kAfterReset n 3
        k4 := Config.kAfterReset n 4, k5 := Config.kAfterReset n 5
        k6 := Config.kAfterReset n 6, k7 := Config.kAfterReset n 7 }
    rk := []
    rspData := Config.rspDataAfterReset n
    resets := n }

/-- A rising edge with `rst_i = 1` (R220): the control registers take the values of R37, no command is
accepted, no fault is raised and no micro-operation takes effect. -/
def State.resetEdge (s : State) : State :=
  { s.forgetData with
    op := .idle
    upc := 0
    keyValid := false
    rspValid := false
    rspErr := 0 }

/-! ### The input ports -/

/-- The values on the input ports at the coming edge (R170; log 6). -/
def State.ports (s : State) : Ports := s.host.headD Ports.quiet

/-- The edge has passed: the HOST's next port values are up, and a word placed from outside is used up. -/
def State.pastEdge (s : State) : State := { s with host := s.host.tail, direct := none }

end Sys2Proof.Machine
end

