-- ==== Sys2Proof/Machine/Commands.lean ====
section
/-! DEFINITION. What the four command codes do at an accepting edge (45_host_interface.md, 60_exceptions.md).
The rest of a command is its micro-program, one micro-operation a step (R158). -/

namespace Sys2Proof.Machine

/-- Acceptance of `KEYEXP` (R174): `K` takes the key words of `key_i` and `KEY_VALID <- 0`. -/
def State.acceptKeyexp (s : State) : State :=
  { s.startCommand .keyexp with k := keyOfPort s.ports.key, keyValid := false }

/-- Acceptance of `ENC` or `DEC`: with `KEY_VALID = 1` the command starts and `X` takes the block words of
`blk_i` (R175); with `KEY_VALID = 0` it faults NO_KEY and `blk_i` is not sampled (R192). -/
def State.acceptBlock (op : Op) (s : State) : State :=
  if s.keyValid then { s.startCommand op with x := blockOfPort s.ports.blk }
  else s.faultResponse errNoKey

/-- The reserved code `00` (R191): the fault ILLEGAL_CMD, whatever `KEY_VALID` is. -/
def execIllegal (s : State) : Host.Outcome State Fault Refusal :=
  s.onAcceptance (fun s => s.faultResponse errIllegalCmd)

/-- `KEYEXP` (R123, R174). -/
def execKeyexp (s : State) : Host.Outcome State Fault Refusal :=
  s.onAcceptance State.acceptKeyexp

/-- `ENC` (R160, R175, R192). -/
def execEnc (s : State) : Host.Outcome State Fault Refusal :=
  s.onAcceptance (State.acceptBlock .enc)

/-- `DEC` (R161, R175, R192). -/
def execDec (s : State) : Host.Outcome State Fault Refusal :=
  s.onAcceptance (State.acceptBlock .dec)

end Sys2Proof.Machine
end

