-- ==== Sys2Proof/Machine/Engine.lean ====
section
/-! DEFINITION. The Permutation Engine's micro-operations ARK and END (44_permutation_engine.md). -/

namespace Sys2Proof.Machine

/-- XORs a pair of key words into branch `b`, the first word taking the word at the even offset (R150). -/
def Block.xorBranch (x : Block) (b : Branch) (key : Word × Word) : Block :=
  x.setBranch b (xor16 (x.branch b).1 key.1, xor16 (x.branch b).2 key.2)

/-- The two table words of `ARK g, r, b`: `RK[g][2r]` and `RK[g][2r+1]`, `MemRead(6*g + 2*r, 2)` (R52, R86). -/
def State.roundKey (s : State) (g r : Nat) : Word × Word := (s.rkWord g (2 * r), s.rkWord g (2 * r + 1))

/-- `ARK g, r, b` (R150); a group index above 16 or a round field 3 is a reserved encoding (R89). -/
def execArk (g r : Nat) (b : Branch) (s : State) : Host.Outcome State Fault Refusal :=
  if groupOk g then
    if roundOk r then .next (s.setX (s.x.xorBranch b (s.roundKey g r))).nextUop
    else .refused (.reserved .roundOutOfRange)
  else .refused (.reserved .groupOutOfRange)

/-- `END` (R153). With `OP = 00`, which no micro-program has, its unconditional lines are carried out
(log 20). -/
def execEnd (s : State) : Host.Outcome State Fault Refusal := .next s.endCommand

end Sys2Proof.Machine
end

