-- ==== Sys2Proof/Machine/ArxPair.lean ====
section
/-! DEFINITION. The ARX pair-function and its inverse (42_arx_pair.md), and the micro-operations A and AINV. -/

namespace Sys2Proof.Machine

/-- `A_fn(l, r)`: `l1 = rol16(l, 9) +16 r`, `r1 = rol16(r, 2) ^ l1`, the second line using the new `l1` (R130). -/
def aFn (p : Word × Word) : Word × Word :=
  let l1 := add16 (rol16 p.1 Config.rotAL) p.2
  let r1 := xor16 (rol16 p.2 Config.rotAR) l1
  (l1, r1)

/-- `AINV_fn(l, r)`: `rt = r ^ l`, `r1 = ror16(rt, 2)`, `l1 = ror16(l -16 r1, 9)` (R131). -/
def ainvFn (p : Word × Word) : Word × Word :=
  let rt := xor16 p.2 p.1
  let r1 := ror16 rt Config.rotAR
  let l1 := ror16 (sub16 p.1 r1) Config.rotAL
  (l1, r1)

/-- Applies a function of a pair to branch `b` of the block state. -/
def Block.onBranch (x : Block) (b : Branch) (f : Word × Word → Word × Word) : Block :=
  x.setBranch b (f (x.branch b))

/-- `A b` (R130). -/
def execA (b : Branch) (s : State) : Host.Outcome State Fault Refusal :=
  .next (s.setX (s.x.onBranch b aFn)).nextUop

/-- `AINV b` (R131). -/
def execAinv (b : Branch) (s : State) : Host.Outcome State Fault Refusal :=
  .next (s.setX (s.x.onBranch b ainvFn)).nextUop

end Sys2Proof.Machine
end

