-- ==== Sys2Proof/Machine/KeySchedule.lean ====
section
/-! DEFINITION. The Key Scheduler's micro-operations KST and KPERM (41_key_schedule.md). -/

namespace Sys2Proof.Machine

/-- `KPermFn(k, c)`, the function of R121: the additions use the updated `l1`, `r1` and the saved `K[7]` is
the one the counter was added to; every word moves two places toward the higher index (C1 of
90_conflicts.md). -/
def kpermFn (k : KeyBuf) (c : Nat) : KeyBuf :=
  let p := aFn (k.k0, k.k1)
  let m2 := add16 k.k2 p.1
  let m3 := add16 k.k3 p.2
  let m7 := add16 k.k7 (counterWord c)
  { k0 := k.k6
    k1 := m7
    k2 := p.1
    k3 := p.2
    k4 := m2
    k5 := m3
    k6 := k.k4
    k7 := k.k5 }

/-- `KST g` (R120); a group index above 16 is a reserved encoding (R89). -/
def execKst (g : Nat) (s : State) : Host.Outcome State Fault Refusal :=
  if groupOk g then .next (s.storeGroup g s.k.storedWords).nextUop
  else .refused (.reserved .groupOutOfRange)

/-- `KPERM c` (R121); a counter 0 or above 17 is a reserved encoding (R89). -/
def execKperm (c : Nat) (s : State) : Host.Outcome State Fault Refusal :=
  if counterOk c then .next (s.setK (kpermFn s.k c)).nextUop
  else .refused (.reserved .counterOutOfRange)

end Sys2Proof.Machine
end

