-- ==== Sys2Proof/Machine/LinearLayer.lean ====
section
/-! DEFINITION. The linear mixing layer and its inverse (43_linear_layer.md), and the micro-operations L2 and
L2INV. -/

namespace Sys2Proof.Machine

/-- The layer's `tmp` of two words: `rol16(a ^ b, 8)` (R140, R141). -/
def l2Tmp (a b : Word) : Word := rol16 (xor16 a b) Config.rotL2

/-- Forward layer: `X <- (X[2] ^ X[0] ^ tmp, X[3] ^ X[1] ^ tmp, X[0], X[1])` (R140). -/
def l2Fn (x : Block) : Block :=
  let tmp := l2Tmp x.x0 x.x1
  { x0 := xor16 (xor16 x.x2 x.x0) tmp
    x1 := xor16 (xor16 x.x3 x.x1) tmp
    x2 := x.x0
    x3 := x.x1 }

/-- Inverse layer: the swap first, then `tmp` "from the words now in positions 0 and 1" (R141, C2 of
90_conflicts.md). -/
def l2invFn (x : Block) : Block :=
  let a0 := x.x2
  let a1 := x.x3
  let a2 := x.x0
  let a3 := x.x1
  let tmp := l2Tmp a0 a1
  { x0 := a0
    x1 := a1
    x2 := xor16 (xor16 a2 a0) tmp
    x3 := xor16 (xor16 a3 a1) tmp }

/-- `L2` (R140). -/
def execL2 (s : State) : Host.Outcome State Fault Refusal :=
  .next (s.setX (l2Fn s.x)).nextUop

/-- `L2INV` (R141). -/
def execL2inv (s : State) : Host.Outcome State Fault Refusal :=
  .next (s.setX (l2invFn s.x)).nextUop

end Sys2Proof.Machine
end

