-- ==== Sys2Proof/Machine/WordAlu.lean ====
section
/-! DEFINITION. The four ALU functions as operations of the table: each reads the ALU's operand nets, drives
the result net and writes no register: "The ALU functions are pure: they read their operands, return one
word, and write no state" (40_word_alu.md). The nets are the model's own (log 8). -/

namespace Sys2Proof.Machine

/-- `ADD16 a, b` (R110). -/
def execAdd16 (s : State) : Host.Outcome State Fault Refusal :=
  .next (s.setAluY (add16 s.alu.a s.alu.b))

/-- `SUB16 a, b` (R111). -/
def execSub16 (s : State) : Host.Outcome State Fault Refusal :=
  .next (s.setAluY (sub16 s.alu.a s.alu.b))

/-- `ROL16 a, n`; operand `b` is unused (R88, R112). An amount of 16 or more has no control value; R112 takes
it modulo 16 (log 18). -/
def execRol16 (n : Nat) (s : State) : Host.Outcome State Fault Refusal :=
  .next (s.setAluY (rol16 s.alu.a n))

/-- `XOR16 a, b` (R113). -/
def execXor16 (s : State) : Host.Outcome State Fault Refusal :=
  .next (s.setAluY (xor16 s.alu.a s.alu.b))

end Sys2Proof.Machine
end

