-- ==== Sys2Proof/Machine/Dispatch.lean ====
section
/-! DEFINITION. One arm per row of the opcode table, each a direct call of that operation's meaning. -/

namespace Sys2Proof.Machine

/-- What an operation does to the state. -/
def exec (i : Instr) (s : State) : Host.Outcome State Fault Refusal :=
  match i with
  | .illegal => Sys2Proof.Machine.execIllegal s
  | .keyexp => Sys2Proof.Machine.execKeyexp s
  | .enc => Sys2Proof.Machine.execEnc s
  | .dec => Sys2Proof.Machine.execDec s
  | .endCmd => Sys2Proof.Machine.execEnd s
  | .kst g => Sys2Proof.Machine.execKst g s
  | .kperm c => Sys2Proof.Machine.execKperm c s
  | .ark g r b => Sys2Proof.Machine.execArk g r b s
  | .a b => Sys2Proof.Machine.execA b s
  | .ainv b => Sys2Proof.Machine.execAinv b s
  | .l2 => Sys2Proof.Machine.execL2 s
  | .l2inv => Sys2Proof.Machine.execL2inv s
  | .add16 => Sys2Proof.Machine.execAdd16 s
  | .sub16 => Sys2Proof.Machine.execSub16 s
  | .rol16 n => Sys2Proof.Machine.execRol16 n s
  | .xor16 => Sys2Proof.Machine.execXor16 s

end Sys2Proof.Machine
end

