-- ==== Sys2Proof/Machine/MicroProgram.lean ====
section
/-! DEFINITION. The micro-program function `uprog(OP, UPC)` (R91), computed by the formulas of R92, R93 and
R94. It is a fixed property of the hardware and is read from no storage (R68). -/

namespace Sys2Proof.Machine

/-- The word of `ARK g, r, b`: `0x300 | (g << 3) | (r << 1) | b` (R93). -/
def arkWordNat (g r b : Nat) : Nat := 0x300 ||| (g <<< 3) ||| (r <<< 1) ||| b

/-- The KEYEXP micro-program, `UPC` in 0 to 34 (R92). -/
def uprogKeyexp (u : Nat) : Option Nat :=
  if u ≤ 33 then
    let c := u / 2
    if u % 2 = 0 then some (0x100 ||| (c <<< 3)) else some (0x200 ||| ((c + 1) <<< 3))
  else if u = 34 then some 0x000
  else none

/-- The ENC micro-program, `UPC` in 0 to 106 (R93). -/
def uprogEnc (n : Nat) : Option Nat :=
  if n ≤ 103 then
    let s := n / 13
    let t := n % 13
    if t = 12 then some 0x600
    else
      let b := t / 6
      let u := t % 6
      let r := u / 2
      if u % 2 = 0 then some (arkWordNat (roundGroup s b) r b) else some (0x400 ||| b)
  else if n = 104 then some (arkWordNat whiteningGroup 0 0)
  else if n = 105 then some (arkWordNat whiteningGroup 1 1)
  else if n = 106 then some 0x000
  else none

/-- The DEC micro-program, `UPC` in 0 to 106 (R94). -/
def uprogDec (n : Nat) : Option Nat :=
  if n = 0 then some (arkWordNat whiteningGroup 0 0)
  else if n = 1 then some (arkWordNat whiteningGroup 1 1)
  else if n ≤ 105 then
    let v := n - 2
    let s := 7 - v / 13
    let t := v % 13
    if t = 0 then some 0x700
    else
      let b := (t - 1) / 6
      let u := (t - 1) % 6
      let r := 2 - u / 2
      if u % 2 = 0 then some (0x500 ||| b) else some (arkWordNat (roundGroup s b) r b)
  else if n = 106 then some 0x000
  else none

/-- `uprog(OP, UPC)` (R91); not defined for `OP = 00` and outside the stated ranges. -/
def uprog (op : Op) (n : Nat) : Option (BitVec 12) :=
  match op with
  | .idle => none
  | .keyexp => (uprogKeyexp n).map (BitVec.ofNat 12)
  | .enc => (uprogEnc n).map (BitVec.ofNat 12)
  | .dec => (uprogDec n).map (BitVec.ofNat 12)

/-- The index of the last micro-operation, END, of a command's micro-program (R28, R153). -/
def lastUpc : Op → Nat
  | .idle => 0
  | .keyexp => 34
  | .enc => 106
  | .dec => 106

/-- A place in a micro-program that holds the operation, if one does: the sequencer issues no other
(R92 to R94). -/
def programSlot (i : Instr) : Option (Op × Nat) :=
  match i with
  | .endCmd => some (.keyexp, 34)
  | .kst g => if g ≤ 16 then some (.keyexp, 2 * g) else none
  | .kperm c => if 1 ≤ c ∧ c ≤ 17 then some (.keyexp, 2 * c - 1) else none
  | .ark g r b =>
    if r ≤ 2 then
      if g ≤ 15 then
        if g % 2 = b.index then some (.enc, 13 * (g / 2) + 6 * b.index + 2 * r) else none
      else if g = 16 ∧ r = b.index then some (.enc, 104 + r) else none
    else none
  | .a b => some (.enc, 6 * b.index + 1)
  | .ainv b => some (.dec, 6 * b.index + 3)
  | .l2 => some (.enc, 12)
  | .l2inv => some (.dec, 2)
  | _ => none

end Sys2Proof.Machine
end

