-- ==== Sys2Proof/Machine/Fetch.lean ====
section
/-! DEFINITION. What the coming edge brings (R158, R173, R220): a reset; or the micro-operation
`uprog(OP, UPC)` of the command in execution; or the command presented while the CORE is ready; or nothing.
And the placing of a word so that the next step runs it (log 11). -/

namespace Sys2Proof.Machine

/-- What happens at an edge. -/
inductive Fetch where
  /-- `rst_i = 1`: reset has priority over everything (R194, R220). -/
  | reset
  /-- The CORE is ready and no command is presented: nothing changes (R173). -/
  | idle
  /-- An operation's word is to be executed. -/
  | word (w : OpWord)
  /-- `OP` is not `00` and `uprog(OP, UPC)` is not defined (R91). -/
  | outsideProgram
deriving DecidableEq, Repr

/-- The micro-operation word at index `n` of a command's micro-program, if there is one (R91). -/
def programFetch (op : Op) (n : Nat) : Fetch :=
  match uprog op n with
  | some w => .word (.uop w)
  | none => .outsideProgram

/-- What the coming edge brings. While a command executes the presented command is not looked at (R172). -/
def State.fetch (s : State) : Fetch :=
  if s.ports.rst then .reset
  else
    match s.direct with
    | some w => .word w
    | none =>
      if s.op = .idle then (if s.ports.cmdValid then .word (.cmd s.ports.cmdOp) else .idle)
      else programFetch s.op s.upc.toNat

/-- Changes the port values of the coming edge. -/
def State.withPorts (s : State) (f : Ports → Ports) : State :=
  { s with host := f s.ports :: s.host.tail }

/-- Presents the command code at the coming edge to a ready CORE; the operand ports stay as they are. -/
def State.placeCmd (s : State) (c : BitVec 2) : State :=
  { s.withPorts (fun p => { p with rst := false, cmdValid := true, cmdOp := c }) with
    op := .idle, direct := none }

/-- Places a micro-operation word: at a place of a micro-program that holds it, or, where none does, straight
on the datapath (log 9). -/
def State.placeUop (s : State) (w : BitVec 12) : State :=
  let t := s.withPorts (fun p => { p with rst := false })
  match decode (.uop w) with
  | .error _ => { t with direct := some (.uop w) }
  | .ok i =>
    match programSlot i with
    | some (op, n) => { t with op := op, upc := BitVec.ofNat 7 n, direct := none }
    | none => { t with direct := some (.uop w) }

/-- Places an ALU control value straight on the ALU: the sequencer has no step of its own for one (log 9). -/
def State.placeAlu (s : State) (w : BitVec 6) : State :=
  { s.withPorts (fun p => { p with rst := false }) with direct := some (.alu w) }

/-- Places a word so that the next step runs it. -/
def State.placeWord (s : State) : OpWord → State
  | .cmd c => s.placeCmd c
  | .uop w => s.placeUop w
  | .alu w => s.placeAlu w

/-- The outcome with the edge behind it: the frame `step` puts around an operation's own effect. -/
def passEdge : Host.Outcome State Fault Refusal → Host.Outcome State Fault Refusal
  | .next t => .next t.pastEdge
  | .fault f => .fault f
  | .refused r => .refused r

/-- The clock cycles the coming step takes (R236, U12; log 1): one edge for an acceptance, an idle edge or a
reset, and CYCLES_PER_UOP of its code for a micro-step. Nothing else depends on it. -/
def State.stepCycles (s : State) : Nat :=
  match s.fetch with
  | .word (.uop w) => Config.cyclesPerUop (uopOpc w).toNat
  | _ => 1

end Sys2Proof.Machine
end

