-- ==== Sys2Proof/Machine/Step.lean ====
section
/-! DEFINITION. One step of the CORE: one clock edge at which something may take effect (log 1). A busy CORE
executes exactly one micro-operation (R158), a ready one accepts the command presented to it or stays as it
is (R173), and a reset comes before either (R220). -/

namespace Sys2Proof.Machine

/-- One step. -/
def step (s : State) : Host.Outcome State Fault Refusal :=
  match s.fetch with
  | .reset => .next s.resetEdge.pastEdge
  | .idle => .next s.pastEdge
  | .outsideProgram => .fault .noMicroOperation
  | .word w =>
    match decode w with
    | .error e => .refused (.reserved e)
    | .ok i => passEdge (exec i s)

/-- The state with a word of the opcode table, in the table's numbering, placed where the next step takes its
operation from (log 11). A number that is no word of any format changes nothing. -/
def State.withFetchWord (s : State) (nbits w : Nat) : State :=
  match wordOfTable nbits w with
  | some o => s.placeWord o
  | none => s

end Sys2Proof.Machine
end

