-- ==== Sys2Proof/Machine/CommandLevel.lean ====
section
/-! DEFINITION. The command level (R9): the round-key table as a function of the key (R124), the output block
as a function of the input block and the table (R154, R155), and the CORE as a function of its command
history (R182). The step function does not use this file; the two levels must agree. -/

namespace Sys2Proof.Machine

/-- A round-key table as a function of group and word index. -/
abbrev KeyTable := Nat → Nat → Word

/-- The key buffer after `c` applications of `KPermFn`, with counters 1 to `c` (R124). -/
def keyBufAfter (key : KeyBuf) : Nat → KeyBuf
  | 0 => key
  | c + 1 => kpermFn (keyBufAfter key c) (c + 1)

/-- `RK[c][j] <- k[j]` of the buffer after `c` applications (R124). -/
def keySchedule (key : KeyBuf) : KeyTable := fun g j => (keyBufAfter key g).word j

/-- Words `2r` and `2r+1` of group `g`. -/
def keyPair (rk : KeyTable) (g r : Nat) : Word × Word := (rk g (2 * r), rk g (2 * r + 1))

/-- Round `r` of branch `b` in step `s`: the key XOR, then `A_fn` (R154). -/
def encRound (rk : KeyTable) (s : Nat) (b : Branch) (x : Block) (r : Nat) : Block :=
  (x.xorBranch b (keyPair rk (2 * s + b.index) r)).onBranch b aFn

/-- Step `s` of encryption: three rounds of branch 0, three of branch 1, then `L2_fn` (R154). -/
def encStep (rk : KeyTable) (x : Block) (s : Nat) : Block :=
  l2Fn ([0, 1, 2].foldl (encRound rk s .one) ([0, 1, 2].foldl (encRound rk s .zero) x))

/-- The whitening: `X[2b] ^= RK[16][2b]`, `X[2b+1] ^= RK[16][2b+1]` for both branches (R151, R154). -/
def whiten (rk : KeyTable) (x : Block) : Block :=
  (x.xorBranch .zero (keyPair rk 16 0)).xorBranch .one (keyPair rk 16 1)

/-- `Encrypt(block, table)` (R154). -/
def encryptBlock (rk : KeyTable) (x : Block) : Block :=
  whiten rk ([0, 1, 2, 3, 4, 5, 6, 7].foldl (encStep rk) x)

/-- Round `r` of branch `b` in step `s` undone: `AINV_fn`, then the key XOR (R155). -/
def decRound (rk : KeyTable) (s : Nat) (b : Branch) (x : Block) (r : Nat) : Block :=
  (x.onBranch b ainvFn).xorBranch b (keyPair rk (2 * s + b.index) r)

/-- Step `s` of decryption: `L2INV_fn`, then per branch the rounds 2, 1, 0 undone (R155). -/
def decStep (rk : KeyTable) (x : Block) (s : Nat) : Block :=
  [2, 1, 0].foldl (decRound rk s .one) ([2, 1, 0].foldl (decRound rk s .zero) (l2invFn x))

/-- `Decrypt(block, table)` (R155). -/
def decryptBlock (rk : KeyTable) (x : Block) : Block :=
  [7, 6, 5, 4, 3, 2, 1, 0].foldl (decStep rk) (whiten rk x)

/-- A command as the HOST presents it, with its operand port value (R95). -/
inductive HostCmd where
  | illegal
  | keyexp (key : BitVec 128)
  | enc (blk : BitVec 64)
  | dec (blk : BitVec 64)
deriving DecidableEq, Repr

/-- A response (R176): the fault code, and the block where one is part of the response. -/
structure Response where
  err : BitVec 2
  data : Option (BitVec 64)
deriving DecidableEq, Repr

/-- The abstract state of R182: the table and whether it is valid. -/
structure Abstract where
  table : KeyTable
  valid : Bool

/-- One command of R182: the abstract state after it and its response. -/
def Abstract.serve (a : Abstract) : HostCmd → Abstract × Response
  | .illegal => (a, { err := errIllegalCmd, data := none })
  | .keyexp key =>
    ({ table := keySchedule (keyOfPort key), valid := true }, { err := errOk, data := none })
  | .enc blk =>
    if a.valid then
      (a, { err := errOk, data := some (portOfBlock (encryptBlock a.table (blockOfPort blk))) })
    else (a, { err := errNoKey, data := none })
  | .dec blk =>
    if a.valid then
      (a, { err := errOk, data := some (portOfBlock (decryptBlock a.table (blockOfPort blk))) })
    else (a, { err := errNoKey, data := none })

/-- The responses of R182 to a command history. -/
def Abstract.responses : Abstract → List HostCmd → List Response
  | _, [] => []
  | a, c :: cs => (a.serve c).2 :: Abstract.responses (a.serve c).1 cs

end Sys2Proof.Machine
end

