-- ==== Sys2Proof/Safety.lean ====
section
/-! DEFINITION. Runs of the CORE and what holds in them: several steps, the invariant of the reachable states
(R28, R38, R39), the meaning of KEY_VALID (R27), and a run that serves a list of commands (R182, R238). -/

namespace Sys2Proof.Machine

/-- `n` steps, stopping at the first fault or refusal. -/
def stepN : Nat → State → Host.Outcome State Fault Refusal
  | 0, s => .next s
  | n + 1, s =>
    match step s with
    | .next t => stepN n t
    | .fault f => .fault f
    | .refused r => .refused r

/-- One operation's effect and then another's, with no edge between them. -/
def execThen (i j : Instr) (s : State) : Host.Outcome State Fault Refusal :=
  match exec i s with
  | .next t => exec j t
  | .fault f => .fault f
  | .refused r => .refused r

/-- The branch a branch operation acts on (R157): ARK, A and AINV. -/
def branchOf : Instr → Option Branch
  | .ark _ _ b => some b
  | .a b => some b
  | .ainv b => some b
  | .illegal => none
  | .keyexp => none
  | .enc => none
  | .dec => none
  | .endCmd => none
  | .kst _ => none
  | .kperm _ => none
  | .l2 => none
  | .l2inv => none
  | .add16 => none
  | .sub16 => none
  | .rol16 _ => none
  | .xor16 => none

/-- What decides which operation runs next: the control registers, and what the HOST puts on `rst_i`,
`cmd_valid_i` and `cmd_op_i`. No key, block or table word is among them (R34, R117). -/
structure State.SameControl (s t : State) : Prop where
  op : s.op = t.op
  upc : s.upc = t.upc
  keyValid : s.keyValid = t.keyValid
  rspValid : s.rspValid = t.rspValid
  rspErr : s.rspErr = t.rspErr
  direct : s.direct = t.direct
  host : s.host.map (fun p => (p.rst, p.cmdValid, p.cmdOp)) = t.host.map (fun p => (p.rst, p.cmdValid, p.cmdOp))

/-- The HOST asserts no reset at the next `n` edges. -/
def State.NoResetFor (s : State) (n : Nat) : Prop := ∀ p ∈ s.host.take n, p.rst = false

/-- How many groups a KEYEXP has stored when its micro-program is at `UPC = n` (R92). -/
def groupsStored (n : Nat) : Nat := (n + 1) / 2

/-- The invariant of the states a run from reset goes through. -/
structure State.Inv (s : State) : Prop where
  /-- The table's memory has its canonical form. -/
  table_wf : s.rk.wf = true
  /-- An idle CORE has `UPC = 0` (R28, R193). -/
  idle_upc : s.op = .idle → s.upc = 0
  /-- `UPC` stays in the range of the command's micro-program (R28). -/
  upc_range : s.op ≠ .idle → s.upc.toNat ≤ lastUpc s.op
  /-- Fault code `11` is never produced (R30, R190). -/
  err_legal : s.rspErr ≠ 0b11#2
  /-- A busy CORE shows no response (R29). -/
  busy_no_response : s.op ≠ .idle → s.rspValid = false
  /-- `KEY_VALID` is 0 from the acceptance of KEYEXP to its END (R27). -/
  keyexp_no_key : s.op = .keyexp → s.keyValid = false
  /-- ENC and DEC execute only with `KEY_VALID = 1` (R175, R192). -/
  block_has_key : s.op = .enc ∨ s.op = .dec → s.keyValid = true
  /-- A NO_KEY response is shown only while there is no key (R192). -/
  no_key_response : s.rspValid = true → s.rspErr = errNoKey → s.keyValid = false
  /-- `KEY_VALID = 1` only when every word of the table has been written since reset (R38). -/
  key_written : s.keyValid = true → ∀ a < Config.tableWords, s.rk.lists a = true
  /-- A KEYEXP at `UPC` has written the groups it has come past (R92, R120). -/
  keyexp_written : s.op = .keyexp →
    ∀ a < Config.groupWords * groupsStored s.upc.toNat, s.rk.lists a = true
  /-- No word has been placed on the datapath from outside (log 9). -/
  no_direct : s.direct = none

/-- What `KEY_VALID` says (R27): the table is the complete schedule of a key; and while a KEYEXP executes, the
buffer and the groups stored so far are that key's. -/
structure State.ScheduleInv (s : State) : Prop where
  /-- `KEY_VALID = 1`: all 17 groups are a key's schedule (R27, R124). -/
  valid_schedule : s.keyValid = true →
    ∃ key : KeyBuf, ∀ g ≤ 16, ∀ j ≤ 5, s.rkWord g j = keySchedule key g j
  /-- A KEYEXP in execution (R92, R124). -/
  partial_schedule : s.op = .keyexp →
    ∃ key : KeyBuf, s.k = keyBufAfter key (s.upc.toNat / 2) ∧
      ∀ g < groupsStored s.upc.toNat, ∀ j ≤ 5, s.rkWord g j = keySchedule key g j

/-- The micro-steps of a command, its END included; 0 for one that faults (R237). -/
def microSteps (s : State) : HostCmd → Nat
  | .illegal => 0
  | .keyexp _ => 35
  | .enc _ => if s.keyValid then 107 else 0
  | .dec _ => if s.keyValid then 107 else 0

/-- The port values at the edge where the HOST presents a command; the other operand port is 0. -/
def HostCmd.ports : HostCmd → Ports
  | .illegal => { Ports.quiet with cmdValid := true, cmdOp := 0b00#2 }
  | .keyexp key => { Ports.quiet with cmdValid := true, cmdOp := 0b01#2, key := key }
  | .enc blk => { Ports.quiet with cmdValid := true, cmdOp := 0b10#2, blk := blk }
  | .dec blk => { Ports.quiet with cmdValid := true, cmdOp := 0b11#2, blk := blk }

/-- The HOST presents the command to a ready CORE and waits for the response (R224 step 4): the accepting
step and the command's micro-steps. -/
def serveCmd (c : HostCmd) (s : State) : Host.Outcome State Fault Refusal :=
  stepN (microSteps s c + 1) { s with host := [c.ports] }

/-- Whether the command's response has a block (R176): it is a block command and did not fault. -/
def State.responseTo (s : State) : HostCmd → Response
  | .illegal => { err := s.rspErrO, data := none }
  | .keyexp _ => { err := s.rspErrO, data := none }
  | .enc _ => { err := s.rspErrO, data := if s.rspErrO = errOk then some s.blkO else none }
  | .dec _ => { err := s.rspErrO, data := if s.rspErrO = errOk then some s.blkO else none }

/-- Serving the commands one after the other from `s` succeeds, and the responses are these. -/
def Serves : State → List HostCmd → List Response → Prop
  | _, [], rs => rs = []
  | s, c :: cs, rs =>
    ∃ t rest, serveCmd c s = .next t ∧ t.rspValidO = true ∧ t.cmdReadyO = true ∧
      rs = t.responseTo c :: rest ∧ Serves t cs rest

end Sys2Proof.Machine
end

