-- ==== Sys2Proof/Certificates/Slice0/Obligations.lean ====
section
/-! DEFINITION. What the provers are asked to prove of the model: the encodings, the micro-programs, the
step, every operation's effect with everything it leaves alone, the invariants of the reachable states, the
laws of the cipher, and the command level that the micro-programs must agree with. -/

open Sys2Proof Sys2Proof.Machine

/-! ### Encodings -/

/-- Words written out from the tables of R81, R84 and R88 (V29) decode to what they stand for. -/
def Obligations.TableWordsDecode : Prop :=
  decode (.cmd 0b00#2) = .ok .illegal ∧ decode (.cmd 0b01#2) = .ok .keyexp ∧
  decode (.cmd 0b10#2) = .ok .enc ∧ decode (.cmd 0b11#2) = .ok .dec ∧
  decode (.uop 0b000000000000#12) = .ok .endCmd ∧ decode (.uop 0b000110000000#12) = .ok (.kst 16) ∧
  decode (.uop 0b001010001000#12) = .ok (.kperm 17) ∧ decode (.uop 0b001100101101#12) = .ok (.ark 5 2 .one) ∧
  decode (.uop 0b010000000001#12) = .ok (.a .one) ∧ decode (.uop 0b010100000000#12) = .ok (.ainv .zero) ∧
  decode (.uop 0b011000000000#12) = .ok .l2 ∧ decode (.uop 0b011100000000#12) = .ok .l2inv ∧
  decode (.alu 0b000000#6) = .ok .add16 ∧ decode (.alu 0b010000#6) = .ok .sub16 ∧
  decode (.alu 0b101001#6) = .ok (.rol16 9) ∧ decode (.alu 0b110000#6) = .ok .xor16

/-- Decode and encode agree in both directions (R84, R88, R98): a well-formed operation is what its word
decodes to, with every field at every value it may have, and a word that decodes is the word of the
well-formed operation it decodes to, so no two words share a meaning. -/
def Obligations.DecodeEncodeAgree : Prop :=
  (∀ i : Instr, i.wellFormed = true → decode (encode i) = .ok i) ∧
  (∀ (w : OpWord) (i : Instr), decode w = .ok i → i.wellFormed = true ∧ encode i = w)

/-- The reserved words of R89 are the ones the decoder refuses, and no other: by the fields of a
micro-operation word and of an ALU control value. -/
def Obligations.ReservedWordsRefused : Prop :=
  (∀ (opc : BitVec 4) (g : BitVec 5) (r : BitVec 2) (b : BitVec 1),
    (∃ e, decode (.uop (opc ++ g ++ r ++ b)) = .error e) ↔
      (8 ≤ opc.toNat ∨
       (opc = 1#4 ∧ (17 ≤ g.toNat ∨ r ≠ 0#2 ∨ b ≠ 0#1)) ∨
       (opc = 2#4 ∧ (g = 0#5 ∨ 18 ≤ g.toNat ∨ r ≠ 0#2 ∨ b ≠ 0#1)) ∨
       (opc = 3#4 ∧ (17 ≤ g.toNat ∨ r = 3#2)) ∨
       ((opc = 4#4 ∨ opc = 5#4) ∧ (g ≠ 0#5 ∨ r ≠ 0#2)) ∨
       ((opc = 0#4 ∨ opc = 6#4 ∨ opc = 7#4) ∧ (g ≠ 0#5 ∨ r ≠ 0#2 ∨ b ≠ 0#1)))) ∧
  (∀ (fn : BitVec 2) (amt : BitVec 4),
    (∃ e, decode (.alu (fn ++ amt)) = .error e) ↔ (fn ≠ 2#2 ∧ amt ≠ 0#4))

/-- A reserved word is given no meaning (R89, R198): a step that would run one refuses it by name, and a
field value that only a reserved word could carry is refused too. -/
def Obligations.ReservedWordsHaveNoMeaning : Prop :=
  (∀ (s : State) (w : OpWord) (e : DecodeError), s.fetch = .word w → decode w = .error e →
    step s = .refused (.reserved e)) ∧
  (∀ (s : State) (i : Instr), i.format = .uop → i.wellFormed = false →
    ∃ e, exec i s = .refused (.reserved e))

/-! ### The micro-programs -/

/-- `uprog` is defined exactly on the pairs of R92 to R94; each of its words decodes to a well-formed
micro-operation, and it is END exactly at the last index (R91, R53, R153). -/
def Obligations.MicroProgramsAreTotalAndLegal : Prop :=
  ∀ (op : Op) (n : Nat),
    ((uprog op n).isSome = true ↔ op ≠ .idle ∧ n ≤ lastUpc op) ∧
    (∀ w, uprog op n = some w → ∃ i, decode (.uop w) = .ok i ∧ i.wellFormed = true ∧
      i.format = .uop ∧ (i = .endCmd ↔ n = lastUpc op))

/-- The micro-programs are the loop nests of R92 to R94, counted out by step `s`, branch `b` and round `r`
and not by the formulas in `UPC`. -/
def Obligations.MicroProgramsAreTheLoopNests : Prop :=
  (∀ c, c ≤ 16 →
    (uprog .keyexp (2 * c)).map .uop = some (encode (.kst c)) ∧
    (uprog .keyexp (2 * c + 1)).map .uop = some (encode (.kperm (c + 1)))) ∧
  (uprog .keyexp 34).map .uop = some (encode .endCmd) ∧
  (∀ s, s ≤ 7 →
    (∀ b r, r ≤ 2 →
      (uprog .enc (13 * s + 6 * b.index + 2 * r)).map .uop = some (encode (.ark (2 * s + b.index) r b)) ∧
      (uprog .enc (13 * s + 6 * b.index + 2 * r + 1)).map .uop = some (encode (.a b))) ∧
    (uprog .enc (13 * s + 12)).map .uop = some (encode .l2)) ∧
  (uprog .enc 104).map .uop = some (encode (.ark 16 0 .zero)) ∧
  (uprog .enc 105).map .uop = some (encode (.ark 16 1 .one)) ∧
  (uprog .enc 106).map .uop = some (encode .endCmd) ∧
  (uprog .dec 0).map .uop = some (encode (.ark 16 0 .zero)) ∧
  (uprog .dec 1).map .uop = some (encode (.ark 16 1 .one)) ∧
  (∀ v, v ≤ 7 →
    (uprog .dec (2 + 13 * v)).map .uop = some (encode .l2inv) ∧
    (∀ b q, q ≤ 2 →
      (uprog .dec (3 + 13 * v + 6 * b.index + 2 * q)).map .uop = some (encode (.ainv b)) ∧
      (uprog .dec (3 + 13 * v + 6 * b.index + 2 * q + 1)).map .uop =
        some (encode (.ark (2 * (7 - v) + b.index) (2 - q) b)))) ∧
  (uprog .dec 106).map .uop = some (encode .endCmd)

/-! ### The step -/

/-- A step runs the operation it fetches (R158, R173): with no reset, the micro-operation of `uprog(OP, UPC)`
while a command executes, and the presented command while the CORE is ready; `passEdge` is all that step adds
around exec. A word placed from outside (log 9) is run the same way. -/
def Obligations.StepRunsTheFetchedOperation : Prop :=
  ∀ s : State, s.ports.rst = false →
    (s.direct = none → s.op ≠ .idle → ∀ w i, uprog s.op s.upc.toNat = some w → decode (.uop w) = .ok i →
      step s = passEdge (exec i s)) ∧
    (s.direct = none → s.op = .idle → s.ports.cmdValid = true → ∀ i, decode (.cmd s.ports.cmdOp) = .ok i →
      step s = passEdge (exec i s)) ∧
    (s.direct = none → s.op = .idle → s.ports.cmdValid = false → step s = .next s.pastEdge) ∧
    (∀ w i, s.direct = some w → decode w = .ok i → step s = passEdge (exec i s))

/-- Acceptance (R173): at an edge with `rst_i = 1` or with a command in execution nothing is sampled, whatever
is presented; at a ready CORE without a command nothing changes; and with one, exactly one of the four cases
happens, each with the effect its rule gives it. -/
def Obligations.AcceptanceByCodeAndKeyValid : Prop :=
  ∀ s : State, s.direct = none →
    (s.ports.rst = true ∨ s.op ≠ .idle →
      ∀ p : Ports, p.rst = s.ports.rst → step { s with host := p :: s.host.tail } = step s) ∧
    (s.ports.rst = false → s.op = .idle →
      (s.ports.cmdValid = false → step s = .next { s with host := s.host.tail }) ∧
      (s.ports.cmdValid = true →
        (s.ports.cmdOp = 0b00#2 →
          step s = .next { s with rspErr := 0b01#2, rspValid := true, host := s.host.tail }) ∧
        (s.ports.cmdOp = 0b01#2 →
          step s = .next
            { s with
              k := keyOfPort s.ports.key, keyValid := false, rspValid := false, op := .keyexp, upc := 0
              host := s.host.tail }) ∧
        (s.ports.cmdOp = 0b10#2 ∨ s.ports.cmdOp = 0b11#2 → s.keyValid = false →
          step s = .next { s with rspErr := 0b10#2, rspValid := true, host := s.host.tail }) ∧
        (s.ports.cmdOp = 0b10#2 → s.keyValid = true →
          step s = .next
            { s with
              x := blockOfPort s.ports.blk, rspValid := false, op := .enc, upc := 0, host := s.host.tail }) ∧
        (s.ports.cmdOp = 0b11#2 → s.keyValid = true →
          step s = .next
            { s with
              x := blockOfPort s.ports.blk, rspValid := false, op := .dec, upc := 0, host := s.host.tail })))

/-- While a command executes the CORE looks at nothing on the command and operand ports (R172): whatever the
HOST drives there at an edge, the step is the same. `cmd_ready_o` says when that is. -/
def Obligations.BusyCoreIgnoresThePorts : Prop :=
  ∀ s : State, (s.cmdReadyO = true ↔ s.op = .idle) ∧
    (s.cmdReadyO = false → s.direct = none → ∀ p : Ports, p.rst = s.ports.rst →
      step { s with host := p :: s.host.tail } = step s)

/-- The values after reset (R37), in the state after reset and after any edge with `rst_i = 1`, whatever
executes and whatever is presented there (R220, R194); `BLKSZ` is the constant 8. R37 leaves `X`, `K`, `RK` and
`RSP_DATA` unspecified, and nothing is said of them. -/
def Obligations.ResetClearsControl : Prop :=
  (State.reset.op = .idle ∧ State.reset.upc = 0 ∧ State.reset.keyValid = false ∧
    State.reset.rspValid = false ∧ State.reset.rspErr = 0b00#2 ∧ State.reset.blkszO = 8#4) ∧
  ∀ s : State, s.ports.rst = true → ∃ t, step s = .next t ∧
    t.op = .idle ∧ t.upc = 0 ∧ t.keyValid = false ∧ t.rspValid = false ∧ t.rspErr = 0b00#2 ∧
    t.cmdReadyO = true ∧ t.blkszO = 8#4

/-- The output ports are plain functions of the registers (R171). -/
def Obligations.OutputPortsAreFunctionsOfRegisters : Prop :=
  ∀ s : State,
    (s.cmdReadyO = true ↔ s.op.code = 0b00#2) ∧ (s.busyO = true ↔ s.op.code ≠ 0b00#2) ∧
    s.keyValidO = s.keyValid ∧ s.rspValidO = s.rspValid ∧ s.rspErrO = s.rspErr ∧ s.blkO = s.rspData ∧
    s.blkszO = 0b1000#4

/-! ### The micro-operations -/

/-- `KST g` (R120): stores `K[0..5]` into group `g` and leaves every other word of the table, and every other
register but `UPC`, as it was. -/
def Obligations.KstStoresTheGroup : Prop :=
  ∀ (g : Nat) (s : State), g ≤ 16 →
    encode (.kst g) = .uop (BitVec.ofNat 12 (0x100 ||| (g <<< 3))) ∧
    ∃ t, exec (.kst g) s = .next t ∧
      t.rkWord g 0 = s.k.k0 ∧ t.rkWord g 1 = s.k.k1 ∧ t.rkWord g 2 = s.k.k2 ∧
      t.rkWord g 3 = s.k.k3 ∧ t.rkWord g 4 = s.k.k4 ∧ t.rkWord g 5 = s.k.k5 ∧
      (∀ a, a < 6 * g ∨ 6 * g + 6 ≤ a → t.tableWord a = s.tableWord a) ∧
      t = { s with rk := t.rk, upc := s.upc + 1 }

/-- `KPERM c` (R121): the new buffer word by word, with the updated `l1`, `r1` in the additions. -/
def Obligations.KpermPermutesTheBuffer : Prop :=
  ∀ (c : Nat) (s : State), 1 ≤ c → c ≤ 17 →
    encode (.kperm c) = .uop (BitVec.ofNat 12 (0x200 ||| (c <<< 3))) ∧
    exec (.kperm c) s = .next
      { s with
        k :=
          { k0 := s.k.k6
            k1 := s.k.k7 + BitVec.ofNat 16 c
            k2 := s.k.k0.rotateLeft 9 + s.k.k1
            k3 := s.k.k1.rotateLeft 2 ^^^ (s.k.k0.rotateLeft 9 + s.k.k1)
            k4 := s.k.k2 + (s.k.k0.rotateLeft 9 + s.k.k1)
            k5 := s.k.k3 + (s.k.k1.rotateLeft 2 ^^^ (s.k.k0.rotateLeft 9 + s.k.k1))
            k6 := s.k.k4
            k7 := s.k.k5 }
        upc := s.upc + 1 }

/-- `ARK g, r, b` (R150): the branch's two words are XORed with the words at the even and the odd offset; the
table and the other branch stay. -/
def Obligations.ArkXorsTheRoundKey : Prop :=
  ∀ (g r : Nat) (s : State), g ≤ 16 → r ≤ 2 →
    encode (.ark g r .zero) = .uop (BitVec.ofNat 12 (0x300 ||| (g <<< 3) ||| (r <<< 1))) ∧
    encode (.ark g r .one) = .uop (BitVec.ofNat 12 (0x300 ||| (g <<< 3) ||| (r <<< 1) ||| 1)) ∧
    exec (.ark g r .zero) s = .next
      { s with
        x := { s.x with x0 := s.x.x0 ^^^ s.tableWord (6 * g + 2 * r), x1 := s.x.x1 ^^^ s.tableWord (6 * g + 2 * r + 1) }
        upc := s.upc + 1 } ∧
    exec (.ark g r .one) s = .next
      { s with
        x := { s.x with x2 := s.x.x2 ^^^ s.tableWord (6 * g + 2 * r), x3 := s.x.x3 ^^^ s.tableWord (6 * g + 2 * r + 1) }
        upc := s.upc + 1 }

/-- `A b` (R130): `l' = rotl(l, 9) + r`, `r' = rotl(r, 2) ^ l'` on the branch, and nothing else but `UPC`. -/
def Obligations.ArxPairForward : Prop :=
  encode (.a .zero) = .uop 0x400#12 ∧ encode (.a .one) = .uop 0x401#12 ∧
  ∀ s : State,
    exec (.a .zero) s = .next
      { s with
        x :=
          { s.x with
            x0 := s.x.x0.rotateLeft 9 + s.x.x1
            x1 := s.x.x1.rotateLeft 2 ^^^ (s.x.x0.rotateLeft 9 + s.x.x1) }
        upc := s.upc + 1 } ∧
    exec (.a .one) s = .next
      { s with
        x :=
          { s.x with
            x2 := s.x.x2.rotateLeft 9 + s.x.x3
            x3 := s.x.x3.rotateLeft 2 ^^^ (s.x.x2.rotateLeft 9 + s.x.x3) }
        upc := s.upc + 1 }

/-- `AINV b` (R131): `r' = rotr(r ^ l, 2)`, `l' = rotr(l - r', 9)` on the branch, and nothing else but `UPC`. -/
def Obligations.ArxPairInverse : Prop :=
  encode (.ainv .zero) = .uop 0x500#12 ∧ encode (.ainv .one) = .uop 0x501#12 ∧
  ∀ s : State,
    exec (.ainv .zero) s = .next
      { s with
        x :=
          { s.x with
            x0 := (s.x.x0 - (s.x.x1 ^^^ s.x.x0).rotateRight 2).rotateRight 9
            x1 := (s.x.x1 ^^^ s.x.x0).rotateRight 2 }
        upc := s.upc + 1 } ∧
    exec (.ainv .one) s = .next
      { s with
        x :=
          { s.x with
            x2 := (s.x.x2 - (s.x.x3 ^^^ s.x.x2).rotateRight 2).rotateRight 9
            x3 := (s.x.x3 ^^^ s.x.x2).rotateRight 2 }
        upc := s.upc + 1 }

/-- `L2` (R140): the four new words, and nothing else but `UPC`. -/
def Obligations.LinearLayerForward : Prop :=
  encode .l2 = .uop 0x600#12 ∧
  ∀ s : State, exec .l2 s = .next
    { s with
      x :=
        { x0 := s.x.x2 ^^^ s.x.x0 ^^^ (s.x.x0 ^^^ s.x.x1).rotateLeft 8
          x1 := s.x.x3 ^^^ s.x.x1 ^^^ (s.x.x0 ^^^ s.x.x1).rotateLeft 8
          x2 := s.x.x0
          x3 := s.x.x1 }
      upc := s.upc + 1 }

/-- `L2INV` (R141), in terms of the words before the micro-operation. -/
def Obligations.LinearLayerInverse : Prop :=
  encode .l2inv = .uop 0x700#12 ∧
  ∀ s : State, exec .l2inv s = .next
    { s with
      x :=
        { x0 := s.x.x2
          x1 := s.x.x3
          x2 := s.x.x0 ^^^ s.x.x2 ^^^ (s.x.x2 ^^^ s.x.x3).rotateLeft 8
          x3 := s.x.x1 ^^^ s.x.x3 ^^^ (s.x.x2 ^^^ s.x.x3).rotateLeft 8 }
      upc := s.upc + 1 }

/-- `END` (R153): the response and sequencer registers of the three commands; `X`, `K` and `RK` stay. It is the
last micro-operation of every micro-program, and every other micro-operation increments `UPC` and leaves `OP`. -/
def Obligations.EndWritesTheResponse : Prop :=
  encode .endCmd = .uop 0x000#12 ∧
  (uprog .keyexp 34 = some 0x000#12 ∧ uprog .enc 106 = some 0x000#12 ∧ uprog .dec 106 = some 0x000#12) ∧
  (∀ s : State, ∃ t, exec .endCmd s = .next t ∧
    (s.op = .keyexp →
      t = { s with keyValid := true, rspErr := 0b00#2, rspValid := true, op := .idle, upc := 0 }) ∧
    (s.op = .enc ∨ s.op = .dec →
      t =
        { s with
          rspData := s.x.x0 ++ s.x.x1 ++ s.x.x2 ++ s.x.x3
          rspErr := 0b00#2, rspValid := true, op := .idle, upc := 0 }) ∧
    t.busyO = false ∧ t.cmdReadyO = true) ∧
  (∀ (s : State) (i : Instr), i.format = .uop → i.wellFormed = true → i ≠ .endCmd →
    ∃ t, exec i s = .next t ∧ t.upc = s.upc + 1 ∧ t.op = s.op)

/-! ### The ALU functions -/

/-- `ADD16` completes in every state (R110): the result is the sum modulo 65536, and no register changes. That
operands and result stand on nets is the model's choice (log 8). -/
def Obligations.AddWrapsAtSixteenBits : Prop :=
  encode .add16 = .alu 0b000000#6 ∧
  ∀ s : State, ∃ t, exec .add16 s = .next t ∧
    t.alu.y.toNat = (s.alu.a.toNat + s.alu.b.toNat) % 65536 ∧
    t = { s with alu := { s.alu with y := t.alu.y } }

/-- `SUB16` (R111): the difference modulo 65536, which undoes addition exactly and is undone by it. That operands
and result stand on nets is the model's choice (log 8). -/
def Obligations.SubWrapsAtSixteenBits : Prop :=
  encode .sub16 = .alu 0b010000#6 ∧
  ∀ s : State, ∃ t, exec .sub16 s = .next t ∧
    t.alu.y.toNat = (s.alu.a.toNat + 65536 - s.alu.b.toNat) % 65536 ∧
    add16 t.alu.y s.alu.b = s.alu.a ∧ sub16 (add16 s.alu.a s.alu.b) s.alu.b = s.alu.a ∧
    t = { s with alu := { s.alu with y := t.alu.y } }

/-- `ROL16` (R112): bit `i` of the operand becomes bit `(i + m) mod 16` of the result with `m = n mod 16`, for
every amount; amounts up to 15 have a control value. That operands and result stand on nets is the model's choice
(log 8), and so is that the operation takes the amounts that have no control value (log 18). -/
def Obligations.RolMovesEveryBit : Prop :=
  (∀ n, n ≤ 15 → encode (.rol16 n) = .alu (BitVec.ofNat 6 (0x20 ||| n))) ∧
  ∀ (n : Nat) (s : State), ∃ t, exec (.rol16 n) s = .next t ∧
    (∀ i, i < 16 → t.alu.y.getLsbD ((i + n % 16) % 16) = s.alu.a.getLsbD i) ∧
    t = { s with alu := { s.alu with y := t.alu.y } }

/-- `XOR16` (R113): bit `i` of the result is 1 exactly when the operands' bits differ. That operands and result
stand on nets is the model's choice (log 8). -/
def Obligations.XorIsBitwise : Prop :=
  encode .xor16 = .alu 0b110000#6 ∧
  ∀ s : State, ∃ t, exec .xor16 s = .next t ∧
    (∀ i, i < 16 → (t.alu.y.getLsbD i = true ↔ s.alu.a.getLsbD i ≠ s.alu.b.getLsbD i)) ∧
    t = { s with alu := { s.alu with y := t.alu.y } }

/-! ### The commands at acceptance -/

/-- The reserved code `00` (R191, R193): presented to a ready CORE it is answered ILLEGAL_CMD, whatever
`KEY_VALID` is, and "nothing else" changes. -/
def Obligations.ReservedCodeFaults : Prop :=
  encode .illegal = .cmd 0b00#2 ∧
  ∀ s : State, s.op = .idle → exec .illegal s = .next { s with rspErr := 0b01#2, rspValid := true }

/-- Acceptance of `KEYEXP` (R174): `K[i] <- key_i[127 - 16i : 112 - 16i]`, `KEY_VALID`, `RSP_VALID`, `OP` and
`UPC`; `X`, `RK`, `RSP_ERR` and `RSP_DATA` stay. -/
def Obligations.KeyexpAcceptance : Prop :=
  encode .keyexp = .cmd 0b01#2 ∧
  ∀ s : State, s.op = .idle → exec .keyexp s = .next
    { s with
      k :=
        { k0 := s.ports.key.extractLsb' 112 16
          k1 := s.ports.key.extractLsb' 96 16
          k2 := s.ports.key.extractLsb' 80 16
          k3 := s.ports.key.extractLsb' 64 16
          k4 := s.ports.key.extractLsb' 48 16
          k5 := s.ports.key.extractLsb' 32 16
          k6 := s.ports.key.extractLsb' 16 16
          k7 := s.ports.key.extractLsb' 0 16 }
      keyValid := false
      rspValid := false
      op := .keyexp
      upc := 0 }

/-- Acceptance of `ENC` and `DEC` with `KEY_VALID = 1` (R175): `X[i] <- blk_i[63 - 16i : 48 - 16i]`,
`RSP_VALID`, `OP` and `UPC`; `K`, `RK`, `KEY_VALID`, `RSP_ERR` and `RSP_DATA` stay. -/
def Obligations.BlockCommandAcceptance : Prop :=
  encode .enc = .cmd 0b10#2 ∧ encode .dec = .cmd 0b11#2 ∧
  ∀ s : State, s.op = .idle → s.keyValid = true →
    exec .enc s = .next
      { s with
        x :=
          { x0 := s.ports.blk.extractLsb' 48 16
            x1 := s.ports.blk.extractLsb' 32 16
            x2 := s.ports.blk.extractLsb' 16 16
            x3 := s.ports.blk.extractLsb' 0 16 }
        rspValid := false
        op := .enc
        upc := 0 } ∧
    exec .dec s = .next
      { s with
        x :=
          { x0 := s.ports.blk.extractLsb' 48 16
            x1 := s.ports.blk.extractLsb' 32 16
            x2 := s.ports.blk.extractLsb' 16 16
            x3 := s.ports.blk.extractLsb' 0 16 }
        rspValid := false
        op := .dec
        upc := 0 }

/-- NO_KEY (R192, R193): a block command with `KEY_VALID = 0` writes `RSP_ERR` and `RSP_VALID` and nothing
else; in particular `X` is not written. -/
def Obligations.NoKeyFault : Prop :=
  ∀ s : State, s.op = .idle → s.keyValid = false →
    exec .enc s = .next { s with rspErr := 0b10#2, rspValid := true } ∧
    exec .dec s = .next { s with rspErr := 0b10#2, rspValid := true }

/-- A command presented while the CORE is busy "simply has not happened" (R172; log 12). -/
def Obligations.CommandsWhileBusyDoNothing : Prop :=
  ∀ (s : State) (i : Instr), i.format = .cmd → s.op ≠ .idle → exec i s = .next s

/-! ### Ports and laws of the cipher -/

/-- The big-endian convention of R56 on the ports of R57 and R58: word `i` is `256 * B[2i] + B[2i+1]`, with
byte `j` of the key at `key_i[127-8j : 120-8j]` and of a block at `blk_i[63-8j : 56-8j]`; and the layouts of
`blk_i` and `blk_o` are the same. -/
def Obligations.PortsAreBigEndian : Prop :=
  (∀ (key : BitVec 128) (i : Nat), i < 8 →
    ((keyOfPort key).word i).toNat =
      256 * (key.extractLsb' (120 - 8 * (2 * i)) 8).toNat + (key.extractLsb' (120 - 8 * (2 * i + 1)) 8).toNat) ∧
  (∀ (blk : BitVec 64),
    (blockOfPort blk).x0.toNat = 256 * (blk.extractLsb' 56 8).toNat + (blk.extractLsb' 48 8).toNat ∧
    (blockOfPort blk).x1.toNat = 256 * (blk.extractLsb' 40 8).toNat + (blk.extractLsb' 32 8).toNat ∧
    (blockOfPort blk).x2.toNat = 256 * (blk.extractLsb' 24 8).toNat + (blk.extractLsb' 16 8).toNat ∧
    (blockOfPort blk).x3.toNat = 256 * (blk.extractLsb' 8 8).toNat + (blk.extractLsb' 0 8).toNat) ∧
  (∀ blk : BitVec 64, portOfBlock (blockOfPort blk) = blk) ∧
  (∀ x : Block, blockOfPort (portOfBlock x) = x)

/-- `A` and `AINV` are mutual inverses, as functions of a pair and as micro-operations on a branch (R132, whose
second composition is the spec's own inference). -/
def Obligations.ArxPairMutualInverses : Prop :=
  (∀ p : Word × Word, ainvFn (aFn p) = p ∧ aFn (ainvFn p) = p) ∧
  (∀ (b : Branch) (s : State),
    execThen (.a b) (.ainv b) s = .next { s with upc := s.upc + 2 } ∧
    execThen (.ainv b) (.a b) s = .next { s with upc := s.upc + 2 })

/-- `L2` and `L2INV` are mutual inverses, as functions and as micro-operations (R142, whose second composition
is the spec's own inference). -/
def Obligations.LinearLayerMutualInverses : Prop :=
  (∀ x : Block, l2invFn (l2Fn x) = x ∧ l2Fn (l2invFn x) = x) ∧
  (∀ s : State,
    execThen .l2 .l2inv s = .next { s with upc := s.upc + 2 } ∧
    execThen .l2inv .l2 s = .next { s with upc := s.upc + 2 })

/-- Operations on different branches commute, and so do two ARK on the same branch; ARK is its own inverse
(R150, R152, R157; the spec's own inferences). -/
def Obligations.BranchesAreIndependent : Prop :=
  (∀ (s : State) (i j : Instr) (b c : Branch), branchOf i = some b → branchOf j = some c → b ≠ c →
    i.wellFormed = true → j.wellFormed = true → execThen i j s = execThen j i s) ∧
  (∀ (s : State) (g r g' r' : Nat) (b : Branch), g ≤ 16 → r ≤ 2 → g' ≤ 16 → r' ≤ 2 →
    execThen (.ark g r b) (.ark g' r' b) s = execThen (.ark g' r' b) (.ark g r b) s ∧
    execThen (.ark g r b) (.ark g r b) s = .next { s with upc := s.upc + 2 })

/-- The group-to-group relation of the key schedule, and group 0 is the key (R122, the spec's own inference from
R120 and R121). -/
def Obligations.KeyScheduleRecurrence : Prop :=
  ∀ (key : KeyBuf) (c : Nat), c ≤ 15 →
    keySchedule key (c + 1) 0 = (keyBufAfter key c).word 6 ∧
    keySchedule key (c + 1) 1 = (keyBufAfter key c).word 7 + BitVec.ofNat 16 (c + 1) ∧
    (keySchedule key (c + 1) 2, keySchedule key (c + 1) 3) =
      aFn ((keyBufAfter key c).word 0, (keyBufAfter key c).word 1) ∧
    keySchedule key (c + 1) 4 = (keyBufAfter key c).word 2 + keySchedule key (c + 1) 2 ∧
    keySchedule key (c + 1) 5 = (keyBufAfter key c).word 3 + keySchedule key (c + 1) 3 ∧
    ∀ j, j ≤ 5 → keySchedule key 0 j = key.word j

/-- Decryption undoes encryption and the other way round, for every block and every table, whether or not it
came from a key (R156). -/
def Obligations.DecryptInvertsEncrypt : Prop :=
  ∀ (rk : KeyTable) (x : Block),
    decryptBlock rk (encryptBlock rk x) = x ∧ encryptBlock rk (decryptBlock rk x) = x

/-! ### Whole commands: the two levels agree -/

/-- A KEYEXP accepted at this edge: 35 micro-steps later the table is the key's schedule, `K` is the buffer after
17 applications, the response is OK, and `X`, `RSP_DATA` and the rest are untouched (R124, which the spec derives
from R120, R121 and R123). -/
def Obligations.KeyexpBuildsTheSchedule : Prop :=
  ∀ s : State, s.op = .idle → s.direct = none → s.ports.cmdValid = true → s.ports.cmdOp = 0b01#2 →
    s.NoResetFor 36 →
    ∃ t, stepN 36 s = .next t ∧
      (∀ g j, g ≤ 16 → j ≤ 5 → t.rkWord g j = keySchedule (keyOfPort s.ports.key) g j) ∧
      t =
        { s with
          rk := t.rk
          k := keyBufAfter (keyOfPort s.ports.key) 17
          keyValid := true, rspValid := true, rspErr := 0b00#2, upc := 0, host := s.host.drop 36 }

/-- An ENC accepted at this edge: with a key, 107 micro-steps later `X` and `RSP_DATA` hold `Encrypt` of the sampled
block under the table (R154), the response is OK, and nothing else has changed (R160, the spec's own inference);
without one it faults NO_KEY at the edge (R192). -/
def Obligations.EncEncryptsTheBlock : Prop :=
  ∀ s : State, s.op = .idle → s.direct = none → s.ports.cmdValid = true → s.ports.cmdOp = 0b10#2 →
    s.NoResetFor 108 →
    (s.keyValid = true →
      stepN 108 s = .next
        { s with
          x := encryptBlock s.rkWord (blockOfPort s.ports.blk)
          rspData := portOfBlock (encryptBlock s.rkWord (blockOfPort s.ports.blk))
          rspValid := true, rspErr := 0b00#2, upc := 0, host := s.host.drop 108 }) ∧
    (s.keyValid = false → step s = .next { s with rspErr := 0b10#2, rspValid := true, host := s.host.tail })

/-- A DEC accepted at this edge, with a key (R155; R161, the spec's own inference) and without one (R192). -/
def Obligations.DecDecryptsTheBlock : Prop :=
  ∀ s : State, s.op = .idle → s.direct = none → s.ports.cmdValid = true → s.ports.cmdOp = 0b11#2 →
    s.NoResetFor 108 →
    (s.keyValid = true →
      stepN 108 s = .next
        { s with
          x := decryptBlock s.rkWord (blockOfPort s.ports.blk)
          rspData := portOfBlock (decryptBlock s.rkWord (blockOfPort s.ports.blk))
          rspValid := true, rspErr := 0b00#2, upc := 0, host := s.host.drop 108 }) ∧
    (s.keyValid = false → step s = .next { s with rspErr := 0b10#2, rspValid := true, host := s.host.tail })

/-- The CORE as a function of its command history: from a ready CORE whose table is the abstract one when there is
a key, the responses to any list of commands are those of the transaction-level summary (R182, the spec's own
inference). How the HOST presents each command is the model's choice (log 6, log 11). -/
def Obligations.CoreRefinesTheTransactions : Prop :=
  ∀ (s : State) (a : Abstract) (cs : List HostCmd), s.op = .idle → s.direct = none → a.valid = s.keyValid →
    (a.valid = true → ∀ g j, g ≤ 16 → j ≤ 5 → a.table g j = s.rkWord g j) →
    Serves s cs (a.responses cs)

/-! ### Invariants and whole-machine rules -/

/-- The state after reset meets the invariant; that no word is placed from outside is the model's own (log 9). -/
def Obligations.ResetMeetsTheInvariant : Prop := State.reset.Inv

/-- Every step, a reset edge among them, keeps the invariant. -/
def Obligations.StepKeepsTheInvariant : Prop := ∀ s t : State, s.Inv → step s = .next t → t.Inv

/-- No state that meets the invariant stops: there is always a next state (R162, R181). -/
def Obligations.StepNeverStops : Prop := ∀ s : State, s.Inv → ∃ t, step s = .next t

/-- The state after reset says nothing false with `KEY_VALID`. -/
def Obligations.ResetMeetsTheScheduleInvariant : Prop := State.reset.ScheduleInv

/-- `KEY_VALID = 1` means the table is the complete schedule of a key (R27): every step keeps that. -/
def Obligations.StepKeepsTheScheduleInvariant : Prop :=
  ∀ s t : State, s.Inv → s.ScheduleInv → step s = .next t → t.ScheduleInv

/-- No read before write: whenever a step of a run executes an ARK, both table words it reads have been written
since the last reset (R38, the spec's own inference). -/
def Obligations.ArkReadsOnlyWrittenWords : Prop :=
  ∀ (s : State) (w : BitVec 12) (g r : Nat) (b : Branch), s.Inv → s.fetch = .word (.uop w) →
    decode (.uop w) = .ok (.ark g r b) →
    s.rk.lists (tableAddr g (2 * r)) = true ∧ s.rk.lists (tableAddr g (2 * r + 1)) = true

/-- Before END a command changes no response register: the HOST never sees an intermediate block (R162), and
the step goes on to the next micro-operation (R159). -/
def Obligations.ResponseOnlyAtEnd : Prop :=
  ∀ s : State, s.ports.rst = false → s.direct = none → s.op ≠ .idle → s.upc.toNat < lastUpc s.op →
    ∃ t, step s = .next t ∧ t.rspData = s.rspData ∧ t.rspValid = s.rspValid ∧ t.rspErr = s.rspErr ∧
      t.keyValid = s.keyValid ∧ t.op = s.op ∧ t.upc = s.upc + 1

/-- Every command in execution reaches END, after a number of micro-steps that depends on nothing but where
its micro-program stands (R159, R237). -/
def Obligations.EveryCommandEnds : Prop :=
  ∀ s : State, s.direct = none → s.op ≠ .idle → s.upc.toNat ≤ lastUpc s.op →
    s.NoResetFor (lastUpc s.op - s.upc.toNat + 1) →
    (∃ t, stepN (lastUpc s.op - s.upc.toNat + 1) s = .next t ∧ t.op = .idle ∧ t.upc = 0 ∧
      t.rspValid = true ∧ t.rspErr = 0b00#2) ∧
    (∀ k, k ≤ lastUpc s.op - s.upc.toNat →
      ∃ u, stepN k s = .next u ∧ u.op = s.op ∧ u.upc.toNat = s.upc.toNat + k)

/-- The table is written by KEYEXP alone: outside a KEYEXP in execution, and without a reset, no word of it
changes in a step (R22, R39). -/
def Obligations.TableChangesOnlyInKeyexp : Prop :=
  ∀ s t : State, step s = .next t → s.ports.rst = false → s.direct = none → s.op ≠ .keyexp →
    t.rk = s.rk ∧ ∀ g j, t.rkWord g j = s.rkWord g j

/-- `KEY_VALID` rises only at the END of a KEYEXP and falls only at the acceptance of a KEYEXP or at a reset
(R27, R196). -/
def Obligations.KeyValidChangesOnlyByKeyexp : Prop :=
  ∀ s t : State, step s = .next t → s.direct = none →
    (s.keyValid = false → t.keyValid = true → s.op = .keyexp ∧ s.upc.toNat = 34 ∧ s.ports.rst = false) ∧
    (s.keyValid = true → t.keyValid = false →
      s.ports.rst = true ∨ (s.op = .idle ∧ s.ports.cmdValid = true ∧ s.ports.cmdOp = 0b01#2))

/-- No key, block or table word decides what runs (R34, R117): two states that agree on the control registers
and on the HOST's control inputs agree on them after the step. -/
def Obligations.ControlIsIndependentOfData : Prop :=
  ∀ s t s' : State, s.SameControl t → step s = .next s' → ∃ t', step t = .next t' ∧ s'.SameControl t'
end

