-- ==== Sys2Proof/Laws/Alu.lean ====
section
/-! SUPPORT. The laws of the ALU functions (40_word_alu.md) and of the pure functions built on them. -/

namespace Sys2Proof.Machine

theorem add16_toNat (a b : Word) : (add16 a b).toNat = (a.toNat + b.toNat) % 65536 := by
  simp [add16, BitVec.toNat_add]

theorem sub16_toNat (a b : Word) : (sub16 a b).toNat = (a.toNat + 65536 - b.toNat) % 65536 := by
  simp [sub16, BitVec.toNat_sub]; omega

/-- SUB16 undoes ADD16 (R111). -/
@[simp] theorem sub16_add16 (a b : Word) : sub16 (add16 a b) b = a := by
  simp [sub16, add16]

/-- ADD16 undoes SUB16 (R111). -/
@[simp] theorem add16_sub16 (a b : Word) : add16 (sub16 a b) b = a := by
  simp [sub16, add16]

/-- XOR is self-inverse (R113). -/
@[simp] theorem xor16_xor16 (a b : Word) : xor16 (xor16 a b) b = a := by
  simp [xor16]

theorem xor16_comm (a b : Word) : xor16 a b = xor16 b a := BitVec.xor_comm a b

theorem xor16_assoc (a b c : Word) : xor16 (xor16 a b) c = xor16 a (xor16 b c) := BitVec.xor_assoc a b c

/-- ROL16 is the library's rotation of a 16-bit vector. -/
theorem rol16_eq_rotateLeft (a : Word) (n : Nat) : rol16 a n = a.rotateLeft n := by
  unfold rol16
  by_cases h : n % 16 = 0
  · simp only [h, if_true, BitVec.rotateLeft, BitVec.rotateLeftAux]
    ext i hi
    simp
  · simp [h, BitVec.rotateLeft, BitVec.rotateLeftAux]

/-- The bits of a rotated word (R112). -/
theorem getElem_rol16 (a : Word) (n i : Nat) (hi : i < 16) :
    (rol16 a n)[i] = a[(i + (16 - n % 16)) % 16]'(Nat.mod_lt _ (by decide)) := by
  simp only [rol16_eq_rotateLeft]
  rw [BitVec.getElem_rotateLeft]
  split
  · congr 1; omega
  · congr 1; omega

/-- `ROL16(ROL16(a, m), n) = ROL16(a, m + n)` (R112). -/
theorem rol16_rol16 (a : Word) (m n : Nat) : rol16 (rol16 a m) n = rol16 a (m + n) := by
  ext i hi
  simp only [getElem_rol16]
  congr 1; omega

/-- A rotation by a multiple of 16 is the identity (R112). -/
theorem rol16_of_mod_eq_zero (a : Word) {n : Nat} (h : n % 16 = 0) : rol16 a n = a := by simp [rol16, h]

@[simp] theorem ror16_rol16 (a : Word) (n : Nat) : ror16 (rol16 a n) n = a := by
  rw [ror16, rol16_rol16]
  exact rol16_of_mod_eq_zero a (by omega)

@[simp] theorem rol16_ror16 (a : Word) (n : Nat) : rol16 (ror16 a n) n = a := by
  rw [ror16, rol16_rol16]
  exact rol16_of_mod_eq_zero a (by omega)

/-- ROR16 is the library's right rotation of a 16-bit vector (R114). -/
theorem ror16_eq_rotateRight (a : Word) (n : Nat) : ror16 a n = a.rotateRight n := by
  ext i hi
  rw [ror16, getElem_rol16, BitVec.getElem_rotateRight]
  split
  · congr 1; omega
  · congr 1; omega

end Sys2Proof.Machine
end

