-- ==== Sys2Proof/Laws/Encoding.lean ====
section
/-! SUPPORT. The fields of the encoded words: taking a word apart and putting it together again. -/

namespace Sys2Proof

theorem uopWord_toNat (o : BitVec 4) (g : BitVec 5) (r : BitVec 2) (b : BitVec 1) :
    (uopWord o g r b).toNat = o.toNat * 256 + g.toNat * 8 + r.toNat * 2 + b.toNat := by
  have h : (uopWord o g r b).toNat = ((o.toNat <<< 5 ||| g.toNat) <<< 2 ||| r.toNat) <<< 1 ||| b.toNat := by
    show ((o ++ g ++ r ++ b : BitVec (4 + 5 + 2 + 1))).toNat = _
    rw [BitVec.toNat_append, BitVec.toNat_append, BitVec.toNat_append]
  rw [h, ← Nat.shiftLeft_add_eq_or_of_lt b.isLt, ← Nat.shiftLeft_add_eq_or_of_lt r.isLt,
    ← Nat.shiftLeft_add_eq_or_of_lt g.isLt]
  simp only [Nat.shiftLeft_eq]
  omega

theorem aluWord_toNat (fn : BitVec 2) (amt : BitVec 4) : (aluWord fn amt).toNat = fn.toNat * 16 + amt.toNat := by
  have h : (aluWord fn amt).toNat = fn.toNat <<< 4 ||| amt.toNat := by
    show ((fn ++ amt : BitVec (2 + 4))).toNat = _
    rw [BitVec.toNat_append]
  rw [h, ← Nat.shiftLeft_add_eq_or_of_lt amt.isLt, Nat.shiftLeft_eq]

theorem uopOpc_toNat (w : BitVec 12) : (uopOpc w).toNat = w.toNat / 256 := by
  have := w.isLt
  simp [uopOpc, Nat.shiftRight_eq_div_pow]
  omega

theorem uopG_toNat (w : BitVec 12) : (uopG w).toNat = w.toNat / 8 % 32 := by
  simp [uopG, Nat.shiftRight_eq_div_pow]

theorem uopR_toNat (w : BitVec 12) : (uopR w).toNat = w.toNat / 2 % 4 := by
  simp [uopR, Nat.shiftRight_eq_div_pow]

theorem uopB_toNat (w : BitVec 12) : (uopB w).toNat = w.toNat % 2 := by
  simp [uopB]

@[simp] theorem uopOpc_uopWord (o : BitVec 4) (g : BitVec 5) (r : BitVec 2) (b : BitVec 1) :
    uopOpc (uopWord o g r b) = o := by
  have := g.isLt; have := r.isLt; have := b.isLt
  exact BitVec.eq_of_toNat_eq (by rw [uopOpc_toNat, uopWord_toNat]; omega)

@[simp] theorem uopG_uopWord (o : BitVec 4) (g : BitVec 5) (r : BitVec 2) (b : BitVec 1) :
    uopG (uopWord o g r b) = g := by
  have := g.isLt; have := r.isLt; have := b.isLt
  exact BitVec.eq_of_toNat_eq (by rw [uopG_toNat, uopWord_toNat]; omega)

@[simp] theorem uopR_uopWord (o : BitVec 4) (g : BitVec 5) (r : BitVec 2) (b : BitVec 1) :
    uopR (uopWord o g r b) = r := by
  have := g.isLt; have := r.isLt; have := b.isLt
  exact BitVec.eq_of_toNat_eq (by rw [uopR_toNat, uopWord_toNat]; omega)

@[simp] theorem uopB_uopWord (o : BitVec 4) (g : BitVec 5) (r : BitVec 2) (b : BitVec 1) :
    uopB (uopWord o g r b) = b := by
  have := b.isLt
  exact BitVec.eq_of_toNat_eq (by rw [uopB_toNat, uopWord_toNat]; omega)

/-- A word is put together from its own fields (R83). -/
theorem uopWord_fields (w : BitVec 12) : uopWord (uopOpc w) (uopG w) (uopR w) (uopB w) = w := by
  have := w.isLt
  refine BitVec.eq_of_toNat_eq ?_
  rw [uopWord_toNat, uopOpc_toNat, uopG_toNat, uopR_toNat, uopB_toNat]
  omega

/-- An ALU control value is put together from its own fields (R88). -/
theorem aluWord_fields (w : BitVec 6) : aluWord (w.extractLsb' 4 2) (w.extractLsb' 0 4) = w := by
  have := w.isLt
  refine BitVec.eq_of_toNat_eq ?_
  rw [aluWord_toNat]
  simp [Nat.shiftRight_eq_div_pow]
  omega

@[simp] theorem Branch.bit_ofBit (b : BitVec 1) : (Branch.ofBit b).bit = b := by
  revert b
  decide

@[simp] theorem Branch.ofBit_bit (b : Branch) : Branch.ofBit b.bit = b := by cases b <;> rfl

end Sys2Proof
end

