-- ==== Sys2Proof/Laws/State.lean ====
section
/-! SUPPORT. One lemma per field per state update, all true by rfl, so that no later proof unfolds a record
update; and the same for the branches of the block state. -/

namespace Sys2Proof.Machine

@[simp] theorem State.setX_x (s : State) (v : Block) : (s.setX v).x = v := rfl
@[simp] theorem State.setX_k (s : State) (v : Block) : (s.setX v).k = s.k := rfl
@[simp] theorem State.setX_rk (s : State) (v : Block) : (s.setX v).rk = s.rk := rfl
@[simp] theorem State.setX_op (s : State) (v : Block) : (s.setX v).op = s.op := rfl
@[simp] theorem State.setX_upc (s : State) (v : Block) : (s.setX v).upc = s.upc := rfl
@[simp] theorem State.setX_keyValid (s : State) (v : Block) : (s.setX v).keyValid = s.keyValid := rfl
@[simp] theorem State.setX_rspValid (s : State) (v : Block) : (s.setX v).rspValid = s.rspValid := rfl
@[simp] theorem State.setX_rspErr (s : State) (v : Block) : (s.setX v).rspErr = s.rspErr := rfl
@[simp] theorem State.setX_rspData (s : State) (v : Block) : (s.setX v).rspData = s.rspData := rfl
@[simp] theorem State.setX_host (s : State) (v : Block) : (s.setX v).host = s.host := rfl
@[simp] theorem State.setX_direct (s : State) (v : Block) : (s.setX v).direct = s.direct := rfl
@[simp] theorem State.setX_alu (s : State) (v : Block) : (s.setX v).alu = s.alu := rfl
@[simp] theorem State.setX_resets (s : State) (v : Block) : (s.setX v).resets = s.resets := rfl

@[simp] theorem State.setK_x (s : State) (v : KeyBuf) : (s.setK v).x = s.x := rfl
@[simp] theorem State.setK_k (s : State) (v : KeyBuf) : (s.setK v).k = v := rfl
@[simp] theorem State.setK_rk (s : State) (v : KeyBuf) : (s.setK v).rk = s.rk := rfl
@[simp] theorem State.setK_op (s : State) (v : KeyBuf) : (s.setK v).op = s.op := rfl
@[simp] theorem State.setK_upc (s : State) (v : KeyBuf) : (s.setK v).upc = s.upc := rfl
@[simp] theorem State.setK_keyValid (s : State) (v : KeyBuf) : (s.setK v).keyValid = s.keyValid := rfl
@[simp] theorem State.setK_rspValid (s : State) (v : KeyBuf) : (s.setK v).rspValid = s.rspValid := rfl
@[simp] theorem State.setK_rspErr (s : State) (v : KeyBuf) : (s.setK v).rspErr = s.rspErr := rfl
@[simp] theorem State.setK_rspData (s : State) (v : KeyBuf) : (s.setK v).rspData = s.rspData := rfl
@[simp] theorem State.setK_host (s : State) (v : KeyBuf) : (s.setK v).host = s.host := rfl
@[simp] theorem State.setK_direct (s : State) (v : KeyBuf) : (s.setK v).direct = s.direct := rfl
@[simp] theorem State.setK_alu (s : State) (v : KeyBuf) : (s.setK v).alu = s.alu := rfl
@[simp] theorem State.setK_resets (s : State) (v : KeyBuf) : (s.setK v).resets = s.resets := rfl

@[simp] theorem State.storeGroup_x (s : State) (g : Nat) (ws : List Word) : (s.storeGroup g ws).x = s.x := rfl
@[simp] theorem State.storeGroup_k (s : State) (g : Nat) (ws : List Word) : (s.storeGroup g ws).k = s.k := rfl
@[simp] theorem State.storeGroup_rk (s : State) (g : Nat) (ws : List Word) : (s.storeGroup g ws).rk = s.rk.memWrite (tableAddr g 0) ws := rfl
@[simp] theorem State.storeGroup_op (s : State) (g : Nat) (ws : List Word) : (s.storeGroup g ws).op = s.op := rfl
@[simp] theorem State.storeGroup_upc (s : State) (g : Nat) (ws : List Word) : (s.storeGroup g ws).upc = s.upc := rfl
@[simp] theorem State.storeGroup_keyValid (s : State) (g : Nat) (ws : List Word) : (s.storeGroup g ws).keyValid = s.keyValid := rfl
@[simp] theorem State.storeGroup_rspValid (s : State) (g : Nat) (ws : List Word) : (s.storeGroup g ws).rspValid = s.rspValid := rfl
@[simp] theorem State.storeGroup_rspErr (s : State) (g : Nat) (ws : List Word) : (s.storeGroup g ws).rspErr = s.rspErr := rfl
@[simp] theorem State.storeGroup_rspData (s : State) (g : Nat) (ws : List Word) : (s.storeGroup g ws).rspData = s.rspData := rfl
@[simp] theorem State.storeGroup_host (s : State) (g : Nat) (ws : List Word) : (s.storeGroup g ws).host = s.host := rfl
@[simp] theorem State.storeGroup_direct (s : State) (g : Nat) (ws : List Word) : (s.storeGroup g ws).direct = s.direct := rfl
@[simp] theorem State.storeGroup_alu (s : State) (g : Nat) (ws : List Word) : (s.storeGroup g ws).alu = s.alu := rfl
@[simp] theorem State.storeGroup_resets (s : State) (g : Nat) (ws : List Word) : (s.storeGroup g ws).resets = s.resets := rfl

@[simp] theorem State.nextUop_x (s : State) : (s.nextUop).x = s.x := rfl
@[simp] theorem State.nextUop_k (s : State) : (s.nextUop).k = s.k := rfl
@[simp] theorem State.nextUop_rk (s : State) : (s.nextUop).rk = s.rk := rfl
@[simp] theorem State.nextUop_op (s : State) : (s.nextUop).op = s.op := rfl
@[simp] theorem State.nextUop_upc (s : State) : (s.nextUop).upc = s.upc + 1 := rfl
@[simp] theorem State.nextUop_keyValid (s : State) : (s.nextUop).keyValid = s.keyValid := rfl
@[simp] theorem State.nextUop_rspValid (s : State) : (s.nextUop).rspValid = s.rspValid := rfl
@[simp] theorem State.nextUop_rspErr (s : State) : (s.nextUop).rspErr = s.rspErr := rfl
@[simp] theorem State.nextUop_rspData (s : State) : (s.nextUop).rspData = s.rspData := rfl
@[simp] theorem State.nextUop_host (s : State) : (s.nextUop).host = s.host := rfl
@[simp] theorem State.nextUop_direct (s : State) : (s.nextUop).direct = s.direct := rfl
@[simp] theorem State.nextUop_alu (s : State) : (s.nextUop).alu = s.alu := rfl
@[simp] theorem State.nextUop_resets (s : State) : (s.nextUop).resets = s.resets := rfl

@[simp] theorem State.setAluY_x (s : State) (y : Word) : (s.setAluY y).x = s.x := rfl
@[simp] theorem State.setAluY_k (s : State) (y : Word) : (s.setAluY y).k = s.k := rfl
@[simp] theorem State.setAluY_rk (s : State) (y : Word) : (s.setAluY y).rk = s.rk := rfl
@[simp] theorem State.setAluY_op (s : State) (y : Word) : (s.setAluY y).op = s.op := rfl
@[simp] theorem State.setAluY_upc (s : State) (y : Word) : (s.setAluY y).upc = s.upc := rfl
@[simp] theorem State.setAluY_keyValid (s : State) (y : Word) : (s.setAluY y).keyValid = s.keyValid := rfl
@[simp] theorem State.setAluY_rspValid (s : State) (y : Word) : (s.setAluY y).rspValid = s.rspValid := rfl
@[simp] theorem State.setAluY_rspErr (s : State) (y : Word) : (s.setAluY y).rspErr = s.rspErr := rfl
@[simp] theorem State.setAluY_rspData (s : State) (y : Word) : (s.setAluY y).rspData = s.rspData := rfl
@[simp] theorem State.setAluY_host (s : State) (y : Word) : (s.setAluY y).host = s.host := rfl
@[simp] theorem State.setAluY_direct (s : State) (y : Word) : (s.setAluY y).direct = s.direct := rfl
@[simp] theorem State.setAluY_alu (s : State) (y : Word) : (s.setAluY y).alu = { s.alu with y := y } := rfl
@[simp] theorem State.setAluY_resets (s : State) (y : Word) : (s.setAluY y).resets = s.resets := rfl

@[simp] theorem State.faultResponse_x (s : State) (c : BitVec 2) : (s.faultResponse c).x = s.x := rfl
@[simp] theorem State.faultResponse_k (s : State) (c : BitVec 2) : (s.faultResponse c).k = s.k := rfl
@[simp] theorem State.faultResponse_rk (s : State) (c : BitVec 2) : (s.faultResponse c).rk = s.rk := rfl
@[simp] theorem State.faultResponse_op (s : State) (c : BitVec 2) : (s.faultResponse c).op = s.op := rfl
@[simp] theorem State.faultResponse_upc (s : State) (c : BitVec 2) : (s.faultResponse c).upc = s.upc := rfl
@[simp] theorem State.faultResponse_keyValid (s : State) (c : BitVec 2) : (s.faultResponse c).keyValid = s.keyValid := rfl
@[simp] theorem State.faultResponse_rspValid (s : State) (c : BitVec 2) : (s.faultResponse c).rspValid = true := rfl
@[simp] theorem State.faultResponse_rspErr (s : State) (c : BitVec 2) : (s.faultResponse c).rspErr = c := rfl
@[simp] theorem State.faultResponse_rspData (s : State) (c : BitVec 2) : (s.faultResponse c).rspData = s.rspData := rfl
@[simp] theorem State.faultResponse_host (s : State) (c : BitVec 2) : (s.faultResponse c).host = s.host := rfl
@[simp] theorem State.faultResponse_direct (s : State) (c : BitVec 2) : (s.faultResponse c).direct = s.direct := rfl
@[simp] theorem State.faultResponse_alu (s : State) (c : BitVec 2) : (s.faultResponse c).alu = s.alu := rfl
@[simp] theorem State.faultResponse_resets (s : State) (c : BitVec 2) : (s.faultResponse c).resets = s.resets := rfl

@[simp] theorem State.startCommand_x (s : State) (o : Op) : (s.startCommand o).x = s.x := rfl
@[simp] theorem State.startCommand_k (s : State) (o : Op) : (s.startCommand o).k = s.k := rfl
@[simp] theorem State.startCommand_rk (s : State) (o : Op) : (s.startCommand o).rk = s.rk := rfl
@[simp] theorem State.startCommand_op (s : State) (o : Op) : (s.startCommand o).op = o := rfl
@[simp] theorem State.startCommand_upc (s : State) (o : Op) : (s.startCommand o).upc = 0 := rfl
@[simp] theorem State.startCommand_keyValid (s : State) (o : Op) : (s.startCommand o).keyValid = s.keyValid := rfl
@[simp] theorem State.startCommand_rspValid (s : State) (o : Op) : (s.startCommand o).rspValid = false := rfl
@[simp] theorem State.startCommand_rspErr (s : State) (o : Op) : (s.startCommand o).rspErr = s.rspErr := rfl
@[simp] theorem State.startCommand_rspData (s : State) (o : Op) : (s.startCommand o).rspData = s.rspData := rfl
@[simp] theorem State.startCommand_host (s : State) (o : Op) : (s.startCommand o).host = s.host := rfl
@[simp] theorem State.startCommand_direct (s : State) (o : Op) : (s.startCommand o).direct = s.direct := rfl
@[simp] theorem State.startCommand_alu (s : State) (o : Op) : (s.startCommand o).alu = s.alu := rfl
@[simp] theorem State.startCommand_resets (s : State) (o : Op) : (s.startCommand o).resets = s.resets := rfl

@[simp] theorem State.endCommand_x (s : State) : (s.endCommand).x = s.x := rfl
@[simp] theorem State.endCommand_k (s : State) : (s.endCommand).k = s.k := rfl
@[simp] theorem State.endCommand_rk (s : State) : (s.endCommand).rk = s.rk := rfl
@[simp] theorem State.endCommand_op (s : State) : (s.endCommand).op = .idle := rfl
@[simp] theorem State.endCommand_upc (s : State) : (s.endCommand).upc = 0 := rfl
@[simp] theorem State.endCommand_keyValid (s : State) : (s.endCommand).keyValid = if s.op = .keyexp then true else s.keyValid := rfl
@[simp] theorem State.endCommand_rspValid (s : State) : (s.endCommand).rspValid = true := rfl
@[simp] theorem State.endCommand_rspErr (s : State) : (s.endCommand).rspErr = errOk := rfl
@[simp] theorem State.endCommand_rspData (s : State) : (s.endCommand).rspData = if s.op = .enc ∨ s.op = .dec then portOfBlock s.x else s.rspData := rfl
@[simp] theorem State.endCommand_host (s : State) : (s.endCommand).host = s.host := rfl
@[simp] theorem State.endCommand_direct (s : State) : (s.endCommand).direct = s.direct := rfl
@[simp] theorem State.endCommand_alu (s : State) : (s.endCommand).alu = s.alu := rfl
@[simp] theorem State.endCommand_resets (s : State) : (s.endCommand).resets = s.resets := rfl

@[simp] theorem State.acceptKeyexp_x (s : State) : (s.acceptKeyexp).x = s.x := rfl
@[simp] theorem State.acceptKeyexp_k (s : State) : (s.acceptKeyexp).k = keyOfPort s.ports.key := rfl
@[simp] theorem State.acceptKeyexp_rk (s : State) : (s.acceptKeyexp).rk = s.rk := rfl
@[simp] theorem State.acceptKeyexp_op (s : State) : (s.acceptKeyexp).op = .keyexp := rfl
@[simp] theorem State.acceptKeyexp_upc (s : State) : (s.acceptKeyexp).upc = 0 := rfl
@[simp] theorem State.acceptKeyexp_keyValid (s : State) : (s.acceptKeyexp).keyValid = false := rfl
@[simp] theorem State.acceptKeyexp_rspValid (s : State) : (s.acceptKeyexp).rspValid = false := rfl
@[simp] theorem State.acceptKeyexp_rspErr (s : State) : (s.acceptKeyexp).rspErr = s.rspErr := rfl
@[simp] theorem State.acceptKeyexp_rspData (s : State) : (s.acceptKeyexp).rspData = s.rspData := rfl
@[simp] theorem State.acceptKeyexp_host (s : State) : (s.acceptKeyexp).host = s.host := rfl
@[simp] theorem State.acceptKeyexp_direct (s : State) : (s.acceptKeyexp).direct = s.direct := rfl
@[simp] theorem State.acceptKeyexp_alu (s : State) : (s.acceptKeyexp).alu = s.alu := rfl
@[simp] theorem State.acceptKeyexp_resets (s : State) : (s.acceptKeyexp).resets = s.resets := rfl

@[simp] theorem State.resetEdge_rk (s : State) : (s.resetEdge).rk = [] := rfl
@[simp] theorem State.resetEdge_op (s : State) : (s.resetEdge).op = .idle := rfl
@[simp] theorem State.resetEdge_upc (s : State) : (s.resetEdge).upc = 0 := rfl
@[simp] theorem State.resetEdge_keyValid (s : State) : (s.resetEdge).keyValid = false := rfl
@[simp] theorem State.resetEdge_rspValid (s : State) : (s.resetEdge).rspValid = false := rfl
@[simp] theorem State.resetEdge_rspErr (s : State) : (s.resetEdge).rspErr = 0 := rfl
@[simp] theorem State.resetEdge_host (s : State) : (s.resetEdge).host = s.host := rfl
@[simp] theorem State.resetEdge_direct (s : State) : (s.resetEdge).direct = s.direct := rfl
@[simp] theorem State.resetEdge_alu (s : State) : (s.resetEdge).alu = s.alu := rfl
@[simp] theorem State.resetEdge_resets (s : State) : (s.resetEdge).resets = s.resets + 1 := rfl

@[simp] theorem State.pastEdge_x (s : State) : (s.pastEdge).x = s.x := rfl
@[simp] theorem State.pastEdge_k (s : State) : (s.pastEdge).k = s.k := rfl
@[simp] theorem State.pastEdge_rk (s : State) : (s.pastEdge).rk = s.rk := rfl
@[simp] theorem State.pastEdge_op (s : State) : (s.pastEdge).op = s.op := rfl
@[simp] theorem State.pastEdge_upc (s : State) : (s.pastEdge).upc = s.upc := rfl
@[simp] theorem State.pastEdge_keyValid (s : State) : (s.pastEdge).keyValid = s.keyValid := rfl
@[simp] theorem State.pastEdge_rspValid (s : State) : (s.pastEdge).rspValid = s.rspValid := rfl
@[simp] theorem State.pastEdge_rspErr (s : State) : (s.pastEdge).rspErr = s.rspErr := rfl
@[simp] theorem State.pastEdge_rspData (s : State) : (s.pastEdge).rspData = s.rspData := rfl
@[simp] theorem State.pastEdge_host (s : State) : (s.pastEdge).host = s.host.tail := rfl
@[simp] theorem State.pastEdge_direct (s : State) : (s.pastEdge).direct = none := rfl
@[simp] theorem State.pastEdge_alu (s : State) : (s.pastEdge).alu = s.alu := rfl
@[simp] theorem State.pastEdge_resets (s : State) : (s.pastEdge).resets = s.resets := rfl

@[simp] theorem Block.branch_setBranch_same (x : Block) (b : Branch) (v : Word × Word) :
    (x.setBranch b v).branch b = v := by cases b <;> rfl

theorem Block.branch_setBranch_other (x : Block) {b c : Branch} (h : c ≠ b) (v : Word × Word) :
    (x.setBranch b v).branch c = x.branch c := by
  cases b <;> cases c <;> first | rfl | exact absurd rfl h

@[simp] theorem Block.setBranch_setBranch_same (x : Block) (b : Branch) (v w : Word × Word) :
    (x.setBranch b v).setBranch b w = x.setBranch b w := by cases b <;> rfl

@[simp] theorem Block.setBranch_branch (x : Block) (b : Branch) : x.setBranch b (x.branch b) = x := by
  cases b <;> rfl

theorem Block.setBranch_comm (x : Block) {b c : Branch} (h : c ≠ b) (v w : Word × Word) :
    (x.setBranch b v).setBranch c w = (x.setBranch c w).setBranch b v := by
  cases b <;> cases c <;> first | rfl | exact absurd rfl h

@[simp] theorem State.ports_pastEdge (s : State) : s.pastEdge.ports = s.host.tail.headD Ports.quiet := rfl

/-- Two states with the same table and the same reset number read the same words. -/
theorem State.tableWord_congr {s t : State} (hr : t.rk = s.rk) (hn : t.resets = s.resets) (a : Nat) :
    t.tableWord a = s.tableWord a := by
  unfold State.tableWord State.unwritten
  rw [hr, hn]

theorem State.rkWord_congr {s t : State} (hr : t.rk = s.rk) (hn : t.resets = s.resets) (g j : Nat) :
    t.rkWord g j = s.rkWord g j := State.tableWord_congr hr hn _

end Sys2Proof.Machine
end

