-- ==== Sys2Proof/Laws/Memory.lean ====
section
/-! SUPPORT. The laws of the round-key table's memory: a read after a write, and that every write keeps the
canonical form. -/

namespace Sys2Proof.Machine

/-! ### One word -/

theorem Memory.lookup_store_same (m : Memory) (a : Nat) (w : Word) : (m.store a w).lookup a = some w := by
  induction m with
  | nil => simp [Memory.store, Memory.lookup]
  | cons c m ih =>
    unfold Memory.store
    split
    · simp [Memory.lookup]
    · split
      · simp [Memory.lookup]
      · rename_i h
        simp [Memory.lookup, Ne.symm h, ih]

theorem Memory.lookup_store_other (m : Memory) {a b : Nat} (h : b ≠ a) (w : Word) :
    (m.store a w).lookup b = m.lookup b := by
  induction m with
  | nil => simp [Memory.store, Memory.lookup, Ne.symm h]
  | cons c m ih =>
    unfold Memory.store
    split
    · simp [Memory.lookup, Ne.symm h]
    · split
      · rename_i h'
        subst h'
        simp [Memory.lookup, Ne.symm h]
      · simp [Memory.lookup, ih]

theorem Memory.lists_store (m : Memory) (a b : Nat) (w : Word) :
    (m.store a w).lists b = (decide (b = a) || m.lists b) := by
  unfold Memory.lists
  by_cases h : b = a
  · subst h
    simp [Memory.lookup_store_same]
  · simp [Memory.lookup_store_other m h, h]

/-! ### The canonical form -/

theorem Memory.risingFrom_mono {m : Memory} {lo hi : Nat} (h : lo ≤ hi) (hm : m.risingFrom hi = true) :
    m.risingFrom lo = true := by
  cases m with
  | nil => rfl
  | cons c m =>
    simp only [Memory.risingFrom, Bool.and_eq_true, decide_eq_true_eq] at hm ⊢
    exact ⟨⟨le_trans h hm.1.1, hm.1.2⟩, hm.2⟩

theorem Memory.risingFrom_store {m : Memory} {lo a : Nat} (w : Word) (hlo : lo ≤ a)
    (ha : a < Config.tableWords) (hm : m.risingFrom lo = true) : (m.store a w).risingFrom lo = true := by
  induction m generalizing lo with
  | nil => simp [Memory.store, Memory.risingFrom, hlo, ha]
  | cons c m ih =>
    simp only [Memory.risingFrom, Bool.and_eq_true, decide_eq_true_eq] at hm
    obtain ⟨⟨h1, h2⟩, h3⟩ := hm
    unfold Memory.store
    split
    · rename_i hlt
      simp [Memory.risingFrom, hlo, ha, h2, h3, Nat.succ_le_of_lt hlt]
    · split
      · rename_i heq
        subst heq
        simp [Memory.risingFrom, hlo, ha, h3]
      · rename_i hge hne
        simp only [Memory.risingFrom, Bool.and_eq_true, decide_eq_true_eq]
        exact ⟨⟨h1, h2⟩, ih (by omega) h3⟩

/-- A write at an existing address keeps the canonical form. -/
theorem Memory.wf_store {m : Memory} {a : Nat} (w : Word) (ha : a < Config.tableWords) (hm : m.wf = true) :
    (m.store a w).wf = true :=
  Memory.risingFrom_store w (Nat.zero_le a) ha hm

/-! ### Consecutive words -/

theorem Memory.wf_memWrite {m : Memory} {a : Nat} (ws : List Word) (ha : a + ws.length ≤ Config.tableWords)
    (hm : m.wf = true) : (m.memWrite a ws).wf = true := by
  induction ws generalizing m a with
  | nil => exact hm
  | cons w ws ih =>
    simp only [List.length_cons] at ha
    exact ih (by omega) (Memory.wf_store w (by omega) hm)

/-- An address outside the words written reads as before. -/
theorem Memory.lookup_memWrite_outside (m : Memory) (a : Nat) (ws : List Word) {b : Nat}
    (h : b < a ∨ a + ws.length ≤ b) : (m.memWrite a ws).lookup b = m.lookup b := by
  induction ws generalizing m a with
  | nil => rfl
  | cons w ws ih =>
    simp only [List.length_cons] at h
    rw [Memory.memWrite, ih _ _ (by omega), Memory.lookup_store_other _ (by omega)]

/-- Address `a + j` reads as word `j` of those written. -/
theorem Memory.lookup_memWrite_inside (m : Memory) (a : Nat) (ws : List Word) (j : Nat)
    (h : j < ws.length) : (m.memWrite a ws).lookup (a + j) = some ws[j] := by
  induction ws generalizing m a j with
  | nil => exact absurd h (Nat.not_lt_zero j)
  | cons w ws ih =>
    cases j with
    | zero =>
      rw [Memory.memWrite, Memory.lookup_memWrite_outside _ _ _ (by omega)]
      exact Memory.lookup_store_same m a w
    | succ j =>
      have hj : j < ws.length := by simpa using h
      have := ih (m.store a w) (a + 1) j hj
      rw [Memory.memWrite, show a + (j + 1) = a + 1 + j by omega, this]
      rfl

theorem Memory.lists_memWrite (m : Memory) (a : Nat) (ws : List Word) (b : Nat) :
    (m.memWrite a ws).lists b = (decide (a ≤ b ∧ b < a + ws.length) || m.lists b) := by
  by_cases h : a ≤ b ∧ b < a + ws.length
  · have h2 := Memory.lookup_memWrite_inside m a ws (b - a) (by omega)
    rw [show a + (b - a) = b by omega] at h2
    simp [Memory.lists, h2, h]
  · have h2 := Memory.lookup_memWrite_outside m a ws (b := b) (by omega)
    simp [Memory.lists, h2, h]

/-! ### KST and the words of the table -/

/-- The words of the group KST stores. -/
theorem State.rkWord_storeGroup_same (s : State) (g j : Nat) (ws : List Word) (h : j < ws.length) :
    (s.storeGroup g ws).rkWord g j = ws[j] := by
  have := Memory.lookup_memWrite_inside s.rk (tableAddr g 0) ws j h
  simp only [State.rkWord, State.tableWord, State.storeGroup_rk]
  rw [show tableAddr g j = tableAddr g 0 + j by simp [tableAddr], this]

/-- Every address outside the group reads as before. -/
theorem State.tableWord_storeGroup_outside (s : State) (g a : Nat) (ws : List Word)
    (h : a < tableAddr g 0 ∨ tableAddr g 0 + ws.length ≤ a) :
    (s.storeGroup g ws).tableWord a = s.tableWord a := by
  simp only [State.tableWord, State.storeGroup_rk, State.unwritten, State.storeGroup_resets]
  rw [Memory.lookup_memWrite_outside _ _ _ h]

/-- The words of another group read as before. -/
theorem State.rkWord_storeGroup_other (s : State) {g h j : Nat} (ws : List Word) (hg : h ≠ g) (hj : j ≤ 5)
    (hl : ws.length = 6) : (s.storeGroup g ws).rkWord h j = s.rkWord h j := by
  refine State.tableWord_storeGroup_outside s g _ ws ?_
  simp only [tableAddr, Config.groupWords, hl]
  omega

end Sys2Proof.Machine
end

