-- ==== Sys2Proof/Laws/PerInstr.lean ====
section
/-! SUPPORT. Statements made per operation of the table. RoundTrip: a well-formed operation is what its word
decodes to (R84, R88, R98), and its word has its format (R80). -/

namespace Sys2Proof.Laws.RoundTrip

/-- The operation's word has the operation's format and, if the operation is well-formed, decodes to it. -/
def Statement (i : Instr) : Prop :=
  (encode i).format = i.format ∧ (i.wellFormed = true → decode (encode i) = .ok i)

theorem illegal : Statement .illegal := ⟨rfl, fun _ => rfl⟩
theorem keyexp : Statement .keyexp := ⟨rfl, fun _ => rfl⟩
theorem enc : Statement .enc := ⟨rfl, fun _ => rfl⟩
theorem dec : Statement .dec := ⟨rfl, fun _ => rfl⟩
theorem endCmd : Statement .endCmd := ⟨rfl, fun _ => rfl⟩

theorem kst (g : Nat) : Statement (.kst g) := by
  refine ⟨rfl, fun h => ?_⟩
  simp only [Instr.wellFormed, groupOk, decide_eq_true_eq] at h
  interval_cases g <;> rfl

theorem kperm (c : Nat) : Statement (.kperm c) := by
  refine ⟨rfl, fun h => ?_⟩
  simp only [Instr.wellFormed, counterOk, Bool.and_eq_true, decide_eq_true_eq] at h
  obtain ⟨h1, h2⟩ := h
  interval_cases c <;> rfl

theorem ark (g r : Nat) (b : Branch) : Statement (.ark g r b) := by
  refine ⟨rfl, fun h => ?_⟩
  simp only [Instr.wellFormed, groupOk, roundOk, Bool.and_eq_true, decide_eq_true_eq] at h
  obtain ⟨h1, h2⟩ := h
  interval_cases g <;> interval_cases r <;> cases b <;> rfl

theorem a (b : Branch) : Statement (.a b) := ⟨rfl, fun _ => by cases b <;> rfl⟩
theorem ainv (b : Branch) : Statement (.ainv b) := ⟨rfl, fun _ => by cases b <;> rfl⟩
theorem l2 : Statement .l2 := ⟨rfl, fun _ => rfl⟩
theorem l2inv : Statement .l2inv := ⟨rfl, fun _ => rfl⟩
theorem add16 : Statement .add16 := ⟨rfl, fun _ => rfl⟩
theorem sub16 : Statement .sub16 := ⟨rfl, fun _ => rfl⟩

theorem rol16 (n : Nat) : Statement (.rol16 n) := by
  refine ⟨rfl, fun h => ?_⟩
  simp only [Instr.wellFormed, amountOk, decide_eq_true_eq] at h
  interval_cases n <;> rfl

theorem xor16 : Statement .xor16 := ⟨rfl, fun _ => rfl⟩

end Sys2Proof.Laws.RoundTrip
end

