-- ==== Sys2Proof/Laws/Step.lean ====
section
/-! SUPPORT. What a fetch and a step can do, said once; what an operation can change; and the
micro-programs' words, decoded. -/

namespace Sys2Proof.Machine

/-! ### Fetch -/

theorem State.fetch_of_reset {s : State} (h : s.ports.rst = true) : s.fetch = .reset := by
  simp [State.fetch, h]

theorem State.fetch_of_direct {s : State} {w : OpWord} (hr : s.ports.rst = false) (hd : s.direct = some w) :
    s.fetch = .word w := by
  simp [State.fetch, hr, hd]

theorem State.fetch_of_ready {s : State} (hr : s.ports.rst = false) (hd : s.direct = none)
    (ho : s.op = .idle) : s.fetch = if s.ports.cmdValid then .word (.cmd s.ports.cmdOp) else .idle := by
  simp [State.fetch, hr, hd, ho]

theorem State.fetch_of_busy {s : State} (hr : s.ports.rst = false) (hd : s.direct = none)
    (ho : s.op ≠ .idle) : s.fetch = programFetch s.op s.upc.toNat := by
  simp [State.fetch, hr, hd, ho]

theorem programFetch_cases (op : Op) (n : Nat) :
    programFetch op n = .outsideProgram ∨ ∃ w, uprog op n = some w ∧ programFetch op n = .word (.uop w) := by
  unfold programFetch
  cases h : uprog op n with
  | none => exact .inl rfl
  | some w => exact .inr ⟨w, rfl, rfl⟩

theorem State.fetch_ne_reset {s : State} (hr : s.ports.rst = false) : s.fetch ≠ .reset := by
  simp only [State.fetch, hr, Bool.false_eq_true, if_false]
  rcases programFetch_cases s.op s.upc.toNat with hp | ⟨w, -, hp⟩ <;> rw [hp] <;> (repeat' split) <;> simp

theorem State.fetch_eq_idle {s : State} (hr : s.ports.rst = false) (hf : s.fetch = .idle) :
    s.op = .idle ∧ s.direct = none ∧ s.ports.cmdValid = false := by
  simp only [State.fetch, hr, Bool.false_eq_true, if_false] at hf
  rcases programFetch_cases s.op s.upc.toNat with hp | ⟨w, -, hp⟩ <;> rw [hp] at hf <;>
    (repeat' split at hf) <;> simp_all

/-! ### Step -/

/-- Everything a step that answers a next state can have done. -/
theorem step_next_cases {s t : State} (h : step s = .next t) :
    (s.ports.rst = true ∧ t = s.resetEdge.pastEdge) ∨
    (s.ports.rst = false ∧ s.fetch = .idle ∧ s.op = .idle ∧ s.direct = none ∧ s.ports.cmdValid = false ∧
      t = s.pastEdge) ∨
    (s.ports.rst = false ∧ ∃ w i u, s.fetch = .word w ∧ decode w = .ok i ∧ exec i s = .next u ∧
      t = u.pastEdge) := by
  by_cases hr : s.ports.rst = true
  · left
    simp only [step, State.fetch_of_reset hr] at h
    injection h with h
    exact ⟨hr, h.symm⟩
  · have hr' : s.ports.rst = false := by simpa using hr
    right
    unfold step at h
    split at h
    · rename_i hf
      exact absurd hf (State.fetch_ne_reset hr')
    · rename_i hf
      left
      injection h with h
      obtain ⟨h1, h2, h3⟩ := State.fetch_eq_idle hr' hf
      exact ⟨hr', hf, h1, h2, h3, h.symm⟩
    · cases h
    · rename_i w hf
      right
      split at h
      · cases h
      · rename_i i hd
        refine ⟨hr', w, i, ?_⟩
        cases he : exec i s with
        | next u =>
          rw [he] at h
          injection h with h
          exact ⟨u, hf, hd, rfl, h.symm⟩
        | fault f => rw [he] at h; cases h
        | refused r => rw [he] at h; cases h

/-- A step that runs an operation whose effect is known. -/
theorem step_of_exec {s u : State} {w : OpWord} {i : Instr} (hf : s.fetch = .word w)
    (hd : decode w = .ok i) (he : exec i s = .next u) : step s = .next u.pastEdge := by
  simp only [step, hf, hd, he, passEdge]

theorem stepN_succ {s t : State} (h : step s = .next t) (n : Nat) : stepN (n + 1) s = stepN n t := by
  simp only [stepN, h]

theorem stepN_add {s t : State} {m : Nat} (h : stepN m s = .next t) (n : Nat) :
    stepN (m + n) s = stepN n t := by
  induction m generalizing s with
  | zero =>
    injection h with h
    subst h
    rw [Nat.zero_add]
  | succ m ih =>
    rw [Nat.add_right_comm, stepN]
    rw [stepN] at h
    cases hs : step s with
    | next u => rw [hs] at h; exact ih h
    | fault f => rw [hs] at h; cases h
    | refused r => rw [hs] at h; cases h

/-! ### What the HOST asserts -/

theorem State.noReset_now {s : State} {n : Nat} (h : s.NoResetFor (n + 1)) : s.ports.rst = false := by
  unfold State.ports
  cases hh : s.host with
  | nil => rfl
  | cons p ps => exact h p (by simp [hh])

theorem State.noReset_tail {s t : State} {n : Nat} (h : s.NoResetFor (n + 1)) (ht : t.host = s.host.tail) :
    t.NoResetFor n := by
  intro p hp
  rw [ht] at hp
  refine h p ?_
  cases hh : s.host with
  | nil => simp [hh] at hp
  | cons q qs =>
    rw [hh] at hp
    rw [List.take_succ_cons]
    exact List.mem_cons_of_mem _ hp

/-! ### What an operation can change -/

/-- A micro-operation other than END writes `X`, `K` or `RK` and advances `UPC`, and nothing else. -/
theorem exec_uop_frame {i : Instr} {s t : State} (hf : i.format = .uop) (hi : i ≠ .endCmd)
    (h : exec i s = .next t) : t = { s with x := t.x, k := t.k, rk := t.rk, upc := s.upc + 1 } := by
  cases i
  case endCmd => exact absurd rfl hi
  case kst g =>
    simp only [exec, execKst] at h
    split at h
    · injection h with h; subst h; rfl
    · cases h
  case kperm c =>
    simp only [exec, execKperm] at h
    split at h
    · injection h with h; subst h; rfl
    · cases h
  case ark g r b =>
    simp only [exec, execArk] at h
    split at h
    · split at h
      · injection h with h; subst h; rfl
      · cases h
    · cases h
  case a b => injection h with h; subst h; rfl
  case ainv b => injection h with h; subst h; rfl
  case l2 => injection h with h; subst h; rfl
  case l2inv => injection h with h; subst h; rfl
  all_goals cases hf

/-- An ALU function drives the result net and writes no register. -/
theorem exec_alu_frame {i : Instr} {s t : State} (hf : i.format = .alu) (h : exec i s = .next t) :
    t = { s with alu := { s.alu with y := t.alu.y } } := by
  cases i
  case add16 => injection h with h; subst h; rfl
  case sub16 => injection h with h; subst h; rfl
  case rol16 n => injection h with h; subst h; rfl
  case xor16 => injection h with h; subst h; rfl
  all_goals cases hf

/-- A well-formed operation always answers a next state. -/
theorem exec_wellFormed {i : Instr} (s : State) (hw : i.wellFormed = true) : ∃ t, exec i s = .next t := by
  cases i
  case illegal => simp only [exec, execIllegal, State.onAcceptance]; split <;> exact ⟨_, rfl⟩
  case keyexp => simp only [exec, execKeyexp, State.onAcceptance]; split <;> exact ⟨_, rfl⟩
  case enc => simp only [exec, execEnc, State.onAcceptance]; split <;> exact ⟨_, rfl⟩
  case dec => simp only [exec, execDec, State.onAcceptance]; split <;> exact ⟨_, rfl⟩
  case kst g =>
    simp only [Instr.wellFormed] at hw
    simp only [exec, execKst, hw, if_true]
    exact ⟨_, rfl⟩
  case kperm c =>
    simp only [Instr.wellFormed] at hw
    simp only [exec, execKperm, hw, if_true]
    exact ⟨_, rfl⟩
  case ark g r b =>
    simp only [Instr.wellFormed, Bool.and_eq_true] at hw
    simp only [exec, execArk, hw.1, hw.2, if_true]
    exact ⟨_, rfl⟩
  all_goals exact ⟨_, rfl⟩

/-! ### The micro-programs' words, decoded -/

/-- The micro-operation at an index of a command's micro-program. -/
def programInstr (op : Op) (n : Nat) : Option Instr :=
  match uprog op n with
  | none => none
  | some w =>
    match decode (.uop w) with
    | .ok i => some i
    | .error _ => none

/-- The check that the indices below `k` hold decodable, well-formed micro-operations, END at `last` only. -/
def programLegalBelow (op : Op) (last : Nat) : Nat → Bool
  | 0 => true
  | k + 1 =>
    (match programInstr op k with
     | some i => i.wellFormed && i.format == .uop && (i == .endCmd) == (k == last)
     | none => false) && programLegalBelow op last k

theorem programLegalBelow_spec {op : Op} {last k : Nat} (h : programLegalBelow op last k = true) {n : Nat}
    (hn : n < k) :
    ∃ i, programInstr op n = some i ∧ i.wellFormed = true ∧ i.format = .uop ∧ (i = .endCmd ↔ n = last) := by
  induction k with
  | zero => exact absurd hn (Nat.not_lt_zero n)
  | succ k ih =>
    simp only [programLegalBelow, Bool.and_eq_true] at h
    rcases Nat.lt_succ_iff_lt_or_eq.mp hn with hlt | heq
    · exact ih h.2 hlt
    · subst heq
      cases hp : programInstr op n with
      | none => simp [hp] at h
      | some i =>
        simp only [hp, Bool.and_eq_true, beq_iff_eq] at h
        obtain ⟨⟨⟨h1, h2⟩, h3⟩, -⟩ := h
        refine ⟨i, rfl, h1, h2, ?_⟩
        constructor
        · intro hi
          simpa [hi] using h3
        · intro hi
          simpa [hi] using h3

theorem keyexp_program_legal : programLegalBelow .keyexp 34 35 = true := by decide
theorem enc_program_legal : programLegalBelow .enc 106 107 = true := by decide
theorem dec_program_legal : programLegalBelow .dec 106 107 = true := by decide

/-- In its range, a micro-program's index holds a well-formed micro-operation. -/
theorem programInstr_legal {op : Op} (ho : op ≠ .idle) {n : Nat} (hn : n ≤ lastUpc op) :
    ∃ i, programInstr op n = some i ∧ i.wellFormed = true ∧ i.format = .uop ∧
      (i = .endCmd ↔ n = lastUpc op) := by
  cases op
  case idle => exact absurd rfl ho
  case keyexp => exact programLegalBelow_spec keyexp_program_legal (Nat.lt_succ_of_le hn)
  case enc => exact programLegalBelow_spec enc_program_legal (Nat.lt_succ_of_le hn)
  case dec => exact programLegalBelow_spec dec_program_legal (Nat.lt_succ_of_le hn)

/-- Outside its range, a micro-program has no word. -/
theorem uprog_outside {op : Op} {n : Nat} (h : op = .idle ∨ lastUpc op < n) : uprog op n = none := by
  cases op
  case idle => rfl
  all_goals
    have hn : _ < n := h.resolve_left (by decide)
    simp only [lastUpc] at hn
  case keyexp =>
    simp only [uprog, uprogKeyexp]
    rw [if_neg (by omega), if_neg (by omega)]
    rfl
  case enc =>
    simp only [uprog, uprogEnc]
    rw [if_neg (by omega), if_neg (by omega), if_neg (by omega), if_neg (by omega)]
    rfl
  case dec =>
    simp only [uprog, uprogDec]
    rw [if_neg (by omega), if_neg (by omega), if_neg (by omega), if_neg (by omega)]
    rfl

/-- A step of a busy CORE whose micro-operation and its effect are known. -/
theorem step_of_program {s u : State} {i : Instr} (hr : s.ports.rst = false) (hd : s.direct = none)
    (ho : s.op ≠ .idle) (hp : programInstr s.op s.upc.toNat = some i) (he : exec i s = .next u) :
    step s = .next u.pastEdge := by
  unfold programInstr at hp
  cases hu : uprog s.op s.upc.toNat with
  | none => simp [hu] at hp
  | some w =>
    simp only [hu] at hp
    cases hw : decode (.uop w) with
    | error e => simp [hw] at hp
    | ok j =>
      simp only [hw, Option.some.injEq] at hp
      subst hp
      refine step_of_exec (w := .uop w) ?_ hw he
      rw [State.fetch_of_busy hr hd ho, programFetch, hu]

/-! ### Runs of block micro-operations -/

/-- What a micro-operation of ENC or DEC does to `X`, as a function of the table. -/
def blockEffect (rk : KeyTable) (x : Block) : Instr → Option Block
  | .ark g r b => if groupOk g && roundOk r then some (x.xorBranch b (keyPair rk g r)) else none
  | .a b => some (x.onBranch b aFn)
  | .ainv b => some (x.onBranch b ainvFn)
  | .l2 => some (l2Fn x)
  | .l2inv => some (l2invFn x)
  | _ => none

theorem exec_of_blockEffect {s : State} {i : Instr} {y : Block} (h : blockEffect s.rkWord s.x i = some y) :
    exec i s = .next (s.setX y).nextUop := by
  cases i
  case ark g r b =>
    simp only [blockEffect, Bool.and_eq_true] at h
    split at h
    · rename_i hg
      injection h with h
      subst h
      simp only [exec, execArk, hg.1, hg.2, if_true]
      rfl
    · cases h
  case a b => injection h with h; subst h; rfl
  case ainv b => injection h with h; subst h; rfl
  case l2 => injection h with h; subst h; rfl
  case l2inv => injection h with h; subst h; rfl
  all_goals cases h

/-- `k` micro-operations from index `n` of a micro-program, as a function of `X`. -/
def blockRun (rk : KeyTable) (op : Op) : Nat → Nat → Block → Option Block
  | 0, _, x => some x
  | k + 1, n, x =>
    match programInstr op n with
    | none => none
    | some i =>
      match blockEffect rk x i with
      | none => none
      | some y => blockRun rk op k (n + 1) y

/-- A run of block micro-operations changes `X`, `UPC` and the HOST's list, and nothing else. -/
theorem stepN_blockRun {k : Nat} {s : State} {y : Block} (hd : s.direct = none) (ho : s.op ≠ .idle)
    (hr : s.NoResetFor k) (hb : s.upc.toNat + k < 128)
    (h : blockRun s.rkWord s.op k s.upc.toNat s.x = some y) :
    stepN k s = .next { s with x := y, upc := s.upc + BitVec.ofNat 7 k, host := s.host.drop k } := by
  induction k generalizing s with
  | zero =>
    injection h with h
    subst h
    simp [stepN]
  | succ k ih =>
    simp only [blockRun] at h
    cases hp : programInstr s.op s.upc.toNat with
    | none => simp [hp] at h
    | some i =>
      simp only [hp] at h
      cases hx : blockEffect s.rkWord s.x i with
      | none => simp [hx] at h
      | some z =>
        simp only [hx] at h
        have hs := step_of_program (State.noReset_now hr) hd ho hp (exec_of_blockEffect hx)
        rw [stepN_succ hs]
        have hupc : (s.upc + 1#7).toNat = s.upc.toNat + 1 := by
          rw [BitVec.toNat_add]
          simp
          omega
        rw [ih (s := (s.setX z).nextUop.pastEdge) rfl ho (State.noReset_tail hr rfl)
          (by simp only [State.pastEdge_upc, State.nextUop_upc, State.setX_upc]
              rw [show (1 : BitVec 7) = 1#7 from rfl, hupc]; omega)
          (by simp only [State.pastEdge_upc, State.nextUop_upc, State.setX_upc]
              rw [show (1 : BitVec 7) = 1#7 from rfl, hupc]; exact h)]
        have hadd : s.upc + 1 + BitVec.ofNat 7 k = s.upc + BitVec.ofNat 7 (k + 1) := by
          rw [BitVec.add_assoc]
          congr 1
          rw [show (1 : BitVec 7) = BitVec.ofNat 7 1 from rfl, ← BitVec.ofNat_add, Nat.add_comm]
        simp only [State.pastEdge, State.nextUop, State.setX, hadd, List.drop_tail, hd]

theorem blockRun_add {rk : KeyTable} {op : Op} {k n : Nat} {x y : Block}
    (h : blockRun rk op k n x = some y) (m : Nat) :
    blockRun rk op (k + m) n x = blockRun rk op m (n + k) y := by
  induction k generalizing n x with
  | zero =>
    injection h with h
    subst h
    simp
  | succ k ih =>
    rw [Nat.add_right_comm, blockRun]
    rw [blockRun] at h
    cases hp : programInstr op n with
    | none => simp [hp] at h
    | some i =>
      simp only [hp] at h ⊢
      cases hx : blockEffect rk x i with
      | none => simp [hx] at h
      | some z =>
        simp only [hx] at h ⊢
        rw [ih h, Nat.add_right_comm, Nat.add_assoc]

end Sys2Proof.Machine
end

