-- ==== Sys2Proof/Laws/Run.lean ====
section
/-! SUPPORT. The micro-programs as runs: the block micro-operations of ENC and DEC compute the command-level
functions of R154 and R155, and a KST with the KPERM after it is one iteration of the key schedule's loop
(R92, R124). -/

namespace Sys2Proof.Machine

/-- The 13 micro-operations of step `s` of ENC (R93). -/
theorem blockRun_encStep (rk : KeyTable) (x : Block) {s : Nat} (hs : s ≤ 7) :
    blockRun rk .enc 13 (13 * s) x = some (encStep rk x s) := by
  interval_cases s <;> rfl

/-- The 106 micro-operations of ENC before its END (R93, R154). -/
theorem blockRun_enc (rk : KeyTable) (x : Block) : blockRun rk .enc 106 0 x = some (encryptBlock rk x) := by
  rw [show 106 = 13 + (13 + (13 + (13 + (13 + (13 + (13 + (13 + 2))))))) from rfl,
    blockRun_add (blockRun_encStep rk x (s := 0) (by decide)),
    blockRun_add (blockRun_encStep rk _ (s := 1) (by decide)),
    blockRun_add (blockRun_encStep rk _ (s := 2) (by decide)),
    blockRun_add (blockRun_encStep rk _ (s := 3) (by decide)),
    blockRun_add (blockRun_encStep rk _ (s := 4) (by decide)),
    blockRun_add (blockRun_encStep rk _ (s := 5) (by decide)),
    blockRun_add (blockRun_encStep rk _ (s := 6) (by decide)),
    blockRun_add (blockRun_encStep rk _ (s := 7) (by decide))]
  rfl

/-- The 13 micro-operations that undo step `7 - v` in DEC (R94). -/
theorem blockRun_decStep (rk : KeyTable) (x : Block) {v : Nat} (hv : v ≤ 7) :
    blockRun rk .dec 13 (2 + 13 * v) x = some (decStep rk x (7 - v)) := by
  interval_cases v <;> rfl

/-- The 106 micro-operations of DEC before its END (R94, R155). -/
theorem blockRun_dec (rk : KeyTable) (x : Block) : blockRun rk .dec 106 0 x = some (decryptBlock rk x) := by
  have hw : blockRun rk .dec 2 0 x = some (whiten rk x) := rfl
  rw [show 106 = 2 + (13 + (13 + (13 + (13 + (13 + (13 + (13 + (13 + 0)))))))) from rfl,
    blockRun_add hw, show 0 + 2 = 2 + 13 * 0 from rfl,
    blockRun_add (blockRun_decStep rk _ (v := 0) (by decide)), show 2 + 13 * 0 + 13 = 2 + 13 * 1 from rfl,
    blockRun_add (blockRun_decStep rk _ (v := 1) (by decide)), show 2 + 13 * 1 + 13 = 2 + 13 * 2 from rfl,
    blockRun_add (blockRun_decStep rk _ (v := 2) (by decide)), show 2 + 13 * 2 + 13 = 2 + 13 * 3 from rfl,
    blockRun_add (blockRun_decStep rk _ (v := 3) (by decide)), show 2 + 13 * 3 + 13 = 2 + 13 * 4 from rfl,
    blockRun_add (blockRun_decStep rk _ (v := 4) (by decide)), show 2 + 13 * 4 + 13 = 2 + 13 * 5 from rfl,
    blockRun_add (blockRun_decStep rk _ (v := 5) (by decide)), show 2 + 13 * 5 + 13 = 2 + 13 * 6 from rfl,
    blockRun_add (blockRun_decStep rk _ (v := 6) (by decide)), show 2 + 13 * 6 + 13 = 2 + 13 * 7 from rfl,
    blockRun_add (blockRun_decStep rk _ (v := 7) (by decide))]
  rfl

theorem programInstr_keyexp_even {c : Nat} (hc : c ≤ 16) : programInstr .keyexp (2 * c) = some (.kst c) := by
  interval_cases c <;> rfl

theorem programInstr_keyexp_odd {c : Nat} (hc : c ≤ 16) :
    programInstr .keyexp (2 * c + 1) = some (.kperm (c + 1)) := by
  interval_cases c <;> rfl

/-- One iteration of the key schedule's loop: `KST c`, then `KPERM (c+1)` (R92). -/
theorem stepN_keyGroup {s : State} {c : Nat} (hd : s.direct = none) (ho : s.op = .keyexp) (hc : c ≤ 16)
    (hu : s.upc.toNat = 2 * c) (hr : s.NoResetFor 2) :
    stepN 2 s = .next
      { s with
        rk := s.rk.memWrite (tableAddr c 0) s.k.storedWords
        k := kpermFn s.k (c + 1)
        upc := s.upc + 2
        host := s.host.drop 2 } := by
  have hne : s.op ≠ .idle := by rw [ho]; decide
  have hg : groupOk c = true := by simp [groupOk, hc]
  have hk : counterOk (c + 1) = true := by simp [counterOk]; omega
  have h1 : step s = .next (s.storeGroup c s.k.storedWords).nextUop.pastEdge := by
    refine step_of_program (i := .kst c) (State.noReset_now hr) hd hne ?_ ?_
    · rw [ho, hu]
      exact programInstr_keyexp_even hc
    · simp only [exec, execKst, hg, if_true]
  rw [stepN_succ h1]
  have hr1 : ((s.storeGroup c s.k.storedWords).nextUop.pastEdge).NoResetFor 1 := State.noReset_tail hr rfl
  have hu1 : (s.upc + 1).toNat = 2 * c + 1 := by
    rw [BitVec.toNat_add, hu]
    simp
    omega
  have h2 : step (s.storeGroup c s.k.storedWords).nextUop.pastEdge =
      .next ((s.storeGroup c s.k.storedWords).nextUop.pastEdge.setK (kpermFn s.k (c + 1))).nextUop.pastEdge := by
    refine step_of_program (i := .kperm (c + 1)) (State.noReset_now hr1) rfl hne ?_ ?_
    · show programInstr s.op (s.upc + 1).toNat = _
      rw [ho, hu1]
      exact programInstr_keyexp_odd hc
    · simp only [exec, execKperm, hk, if_true]
      rfl
  rw [stepN_succ h2, stepN]
  have hadd : s.upc + 1 + 1 = s.upc + 2 := by
    rw [BitVec.add_assoc]
    rfl
  simp only [State.pastEdge, State.nextUop, State.setK, State.storeGroup, hadd, hd,
    ← List.drop_one, List.drop_drop]

end Sys2Proof.Machine
end

