-- ==== Sys2Proof/Tests/Slice0.lean ====
section
/-! SUPPORT. The model's own tests. Expected words, states and tables are those of the spec: the encodings of
R81, R84, R88 and V29, the micro-programs of R127, R164 and R165, the derived vectors V4 to V28 of
95_test_vectors.md, and the known-answer vector V1. After them a witness for every obligation that has
hypotheses: a concrete state and operands that meet all of them. -/

namespace Sys2Proof.Tests

open Sys2Proof.Machine

/-! ### Helpers -/

/-- A reading of the next state, if there is one. -/
def look {α : Type} (o : Host.Outcome State Fault Refusal) (f : State → α) : Option α :=
  match o with
  | .next t => some (f t)
  | .fault _ => none
  | .refused _ => none

/-- A block from four numerals. -/
def blk (a b c d : Nat) : Block where
  x0 := BitVec.ofNat 16 a
  x1 := BitVec.ofNat 16 b
  x2 := BitVec.ofNat 16 c
  x3 := BitVec.ofNat 16 d

/-- The state after reset with another block state. -/
def withX (x : Block) : State := { State.reset with x := x }

/-- The state after reset with operands on the ALU's nets. -/
def withAlu (a b : Nat) : State :=
  { State.reset with alu := { a := BitVec.ofNat 16 a, b := BitVec.ofNat 16 b, y := 0 } }

/-- The state after reset with the next edge's port values. -/
def withPort (p : Ports) : State := { State.reset with host := [p] }

/-- The source's key (V1) as a port value. -/
def katKey : BitVec 128 := 0x00112233445566778899aabbccddeeff#128

/-- The source's plaintext block (V1). -/
def katBlock : BitVec 64 := 0x0123456789abcdef#64

/-- The words of the micro-program table of R127, in the order of UPC. -/
def tableR127 : List Nat :=
  [0x100, 0x208, 0x108, 0x210, 0x110, 0x218, 0x118, 0x220, 0x120, 0x228, 0x128, 0x230, 0x130, 0x238,
    0x138, 0x240, 0x140, 0x248, 0x148, 0x250, 0x150, 0x258, 0x158, 0x260, 0x160, 0x268, 0x168] ++
  [0x270, 0x170, 0x278, 0x178, 0x280, 0x180, 0x288, 0x000]

/-- The words of the micro-program table of R164, in the order of UPC. -/
def tableR164 : List Nat :=
  [0x300, 0x400, 0x302, 0x400, 0x304, 0x400, 0x309, 0x401, 0x30b, 0x401, 0x30d, 0x401, 0x600, 0x310,
    0x400, 0x312, 0x400, 0x314, 0x400, 0x319, 0x401, 0x31b, 0x401, 0x31d, 0x401, 0x600, 0x320] ++
  [0x400, 0x322, 0x400, 0x324, 0x400, 0x329, 0x401, 0x32b, 0x401, 0x32d, 0x401, 0x600, 0x330, 0x400,
    0x332, 0x400, 0x334, 0x400, 0x339, 0x401, 0x33b, 0x401, 0x33d, 0x401, 0x600, 0x340, 0x400] ++
  [0x342, 0x400, 0x344, 0x400, 0x349, 0x401, 0x34b, 0x401, 0x34d, 0x401, 0x600, 0x350, 0x400, 0x352,
    0x400, 0x354, 0x400, 0x359, 0x401, 0x35b, 0x401, 0x35d, 0x401, 0x600, 0x360, 0x400, 0x362] ++
  [0x400, 0x364, 0x400, 0x369, 0x401, 0x36b, 0x401, 0x36d, 0x401, 0x600, 0x370, 0x400, 0x372, 0x400,
    0x374, 0x400, 0x379, 0x401, 0x37b, 0x401, 0x37d, 0x401, 0x600, 0x380, 0x383, 0x000]

/-- The words of the micro-program table of R165, in the order of UPC. -/
def tableR165 : List Nat :=
  [0x380, 0x383, 0x700, 0x500, 0x374, 0x500, 0x372, 0x500, 0x370, 0x501, 0x37d, 0x501, 0x37b, 0x501,
    0x379, 0x700, 0x500, 0x364, 0x500, 0x362, 0x500, 0x360, 0x501, 0x36d, 0x501, 0x36b, 0x501] ++
  [0x369, 0x700, 0x500, 0x354, 0x500, 0x352, 0x500, 0x350, 0x501, 0x35d, 0x501, 0x35b, 0x501, 0x359,
    0x700, 0x500, 0x344, 0x500, 0x342, 0x500, 0x340, 0x501, 0x34d, 0x501, 0x34b, 0x501, 0x349] ++
  [0x700, 0x500, 0x334, 0x500, 0x332, 0x500, 0x330, 0x501, 0x33d, 0x501, 0x33b, 0x501, 0x339, 0x700,
    0x500, 0x324, 0x500, 0x322, 0x500, 0x320, 0x501, 0x32d, 0x501, 0x32b, 0x501, 0x329, 0x700] ++
  [0x500, 0x314, 0x500, 0x312, 0x500, 0x310, 0x501, 0x31d, 0x501, 0x31b, 0x501, 0x319, 0x700, 0x500,
    0x304, 0x500, 0x302, 0x500, 0x300, 0x501, 0x30d, 0x501, 0x30b, 0x501, 0x309, 0x000]

/-- The round-key table V20 of the source's key, group by group. -/
def tableV20 : List Nat :=
  [0x0011, 0x2233, 0x4455, 0x6677, 0x8899, 0xaabb,
   0xccdd, 0xef00, 0x4433, 0xccff, 0x8888, 0x3376,
   0x8899, 0xaabd, 0xaa99, 0x169a, 0xeecc, 0xe399,
   0x8888, 0x3379, 0xddce, 0x7738, 0x8867, 0x8dd2] ++
  [0xeecc, 0xe39d, 0x448a, 0x896e, 0x2258, 0x00a6,
   0x8867, 0x8dd7, 0x7d7a, 0xf30d, 0xc204, 0x7c7b,
   0x2258, 0x00ac, 0x5ce7, 0x6bb9, 0xda61, 0x5ec6,
   0xc204, 0x7c82, 0xb0f0, 0xb240, 0x0dd7, 0x1df9] ++
  [0xda61, 0x5ece, 0x8606, 0x740f, 0x36f6, 0x264f,
   0x0dd7, 0x1e02, 0x2282, 0x59bb, 0xa888, 0xcdca,
   0x36f6, 0x2659, 0xcc1d, 0xb415, 0xee9f, 0x0dd0,
   0xa888, 0xcdd5, 0x12c6, 0x8ba2, 0xdee3, 0x3fb7] ++
  [0xee9f, 0x0ddc, 0xdf26, 0xe871, 0xf1ec, 0x7413,
   0xdee3, 0x3fc4, 0x4db9, 0x7ac9, 0x2cdf, 0x633a,
   0xf1ec, 0x7421, 0x0781, 0xf891, 0x553a, 0x735a,
   0x2cdf, 0x6349, 0x4e04, 0x9e81, 0x5585, 0x9712] ++
  [0x553a, 0x736a, 0x21a2, 0xac87, 0x6fa6, 0x4b08]

/-- The table V20 as the table's memory. -/
def katMemory : Memory := (List.range 102).zip (tableV20.map (BitVec.ofNat 16))

/-- A ready CORE after a KEYEXP of the source's key. -/
def keyed : State :=
  { State.reset with rk := katMemory, k := keyBufAfter (keyOfPort katKey) 17, keyValid := true, rspValid := true }

/-- An ENC of the source's plaintext under its key, at `UPC = n`, with the block state given. -/
def encAt (n : Nat) (x : Block) : State :=
  { keyed with x := x, op := .enc, upc := BitVec.ofNat 7 n, rspValid := false }

/-- A KEYEXP of the source's key with group 0 stored, about to execute `KPERM 1`. -/
def keying : State :=
  { State.reset with
    k := keyOfPort katKey, rk := (keyed.rk).take 6, op := .keyexp, upc := 1 }

/-! ### Encodings -/

/-- V29, the words written out bit by bit. -/
theorem test_decode_uop :
    decode (.uop 0b000000000000#12) = .ok .endCmd ∧ decode (.uop 0b000110000000#12) = .ok (.kst 16) ∧
    decode (.uop 0b001000001000#12) = .ok (.kperm 1) ∧ decode (.uop 0b001010001000#12) = .ok (.kperm 17) ∧
    decode (.uop 0b001100101101#12) = .ok (.ark 5 2 .one) ∧
    decode (.uop 0b001110000011#12) = .ok (.ark 16 1 .one) ∧
    decode (.uop 0b010000000000#12) = .ok (.a .zero) ∧ decode (.uop 0b010000000001#12) = .ok (.a .one) ∧
    decode (.uop 0b010100000000#12) = .ok (.ainv .zero) ∧ decode (.uop 0b010100000001#12) = .ok (.ainv .one) ∧
    decode (.uop 0b011000000000#12) = .ok .l2 ∧ decode (.uop 0b011100000000#12) = .ok .l2inv := by decide

/-- R81. -/
theorem test_decode_cmd :
    decode (.cmd 0b00#2) = .ok .illegal ∧ decode (.cmd 0b01#2) = .ok .keyexp ∧
    decode (.cmd 0b10#2) = .ok .enc ∧ decode (.cmd 0b11#2) = .ok .dec := by decide

/-- R88, V29. -/
theorem test_decode_alu :
    decode (.alu 0b000000#6) = .ok .add16 ∧ decode (.alu 0b010000#6) = .ok .sub16 ∧
    decode (.alu 0b101001#6) = .ok (.rol16 9) ∧ decode (.alu 0b100010#6) = .ok (.rol16 2) ∧
    decode (.alu 0b101110#6) = .ok (.rol16 14) ∧ decode (.alu 0b110000#6) = .ok .xor16 := by decide

/-- The reserved micro-operation words that V29 lists. -/
theorem test_reserved_uop :
    decode (.uop 0x800#12) = .error .reservedOpc ∧ decode (.uop 0xfff#12) = .error .reservedOpc ∧
    decode (.uop 0x188#12) = .error .groupOutOfRange ∧ decode (.uop 0x200#12) = .error .counterOutOfRange ∧
    decode (.uop 0x290#12) = .error .counterOutOfRange ∧ decode (.uop 0x306#12) = .error .roundOutOfRange ∧
    decode (.uop 0x388#12) = .error .groupOutOfRange ∧ decode (.uop 0x101#12) = .error .fieldMustBeZero ∧
    decode (.uop 0x402#12) = .error .fieldMustBeZero ∧ decode (.uop 0x601#12) = .error .fieldMustBeZero ∧
    decode (.uop 0x008#12) = .error .fieldMustBeZero := by decide

/-- The reserved ALU control values that V29 lists. -/
theorem test_reserved_alu :
    decode (.alu 0x01#6) = .error .amountMustBeZero ∧ decode (.alu 0x1f#6) = .error .amountMustBeZero ∧
    decode (.alu 0x31#6) = .error .amountMustBeZero := by decide

/-- A row of each format in the opcode table's numbering, in its own width and in whole bytes. -/
theorem test_decodeTableWord :
    decodeTableWord 2 0b00 = some .illegal ∧ decodeTableWord 8 0b11 = some .dec ∧
    decodeTableWord 12 0x32d = some (.ark 5 2 .one) ∧ decodeTableWord 16 0x288 = some (.kperm 17) ∧
    decodeTableWord 6 0 = some .add16 ∧ decodeTableWord 8 0x29 = some (.rol16 9) ∧
    decodeTableWord 12 0x188 = none ∧ decodeTableWord 16 0x1000 = none := by decide

/-! ### Well-formedness: each check refuses an ill-formed term and takes the last good one -/

theorem test_wellFormed_kst : (Instr.kst 17).wellFormed = false ∧ (Instr.kst 16).wellFormed = true := by decide

theorem test_wellFormed_kperm :
    (Instr.kperm 0).wellFormed = false ∧ (Instr.kperm 18).wellFormed = false ∧
    (Instr.kperm 1).wellFormed = true ∧ (Instr.kperm 17).wellFormed = true := by decide

theorem test_wellFormed_ark :
    (Instr.ark 17 0 .zero).wellFormed = false ∧ (Instr.ark 0 3 .zero).wellFormed = false ∧
    (Instr.ark 16 2 .one).wellFormed = true := by decide

theorem test_wellFormed_rol16 :
    (Instr.rol16 16).wellFormed = false ∧ (Instr.rol16 15).wellFormed = true := by decide

/-! ### The micro-programs -/

/-- R127, read off the spec's table; nothing at UPC 35. -/
theorem test_uprog_keyexp :
    (List.range 36).map uprogKeyexp = tableR127.map some ++ [none] := by decide

/-- R164. -/
theorem test_uprog_enc : (List.range 108).map uprogEnc = tableR164.map some ++ [none] := by decide

/-- R165. -/
theorem test_uprog_dec : (List.range 108).map uprogDec = tableR165.map some ++ [none] := by decide

/-! ### Placing a word where the next step takes its operation from -/

/-- A command, a micro-operation of each micro-program, and one that no micro-program holds. -/
theorem test_withFetchWord :
    (State.reset.withFetchWord 2 0b10).fetch = .word (.cmd 0b10#2) ∧
    (State.reset.withFetchWord 8 0b00).fetch = .word (.cmd 0b00#2) ∧
    (State.reset.withFetchWord 12 0x000).fetch = .word (.uop 0x000#12) ∧
    (State.reset.withFetchWord 12 0x180).fetch = .word (.uop 0x180#12) ∧
    (State.reset.withFetchWord 16 0x288).fetch = .word (.uop 0x288#12) ∧
    (State.reset.withFetchWord 12 0x32d).fetch = .word (.uop 0x32d#12) ∧
    (State.reset.withFetchWord 12 0x401).fetch = .word (.uop 0x401#12) ∧
    (State.reset.withFetchWord 12 0x501).fetch = .word (.uop 0x501#12) ∧
    (State.reset.withFetchWord 12 0x600).fetch = .word (.uop 0x600#12) ∧
    (State.reset.withFetchWord 12 0x700).fetch = .word (.uop 0x700#12) ∧
    (State.reset.withFetchWord 12 0x301).fetch = .word (.uop 0x301#12) ∧
    (State.reset.withFetchWord 6 0x00).fetch = .word (.alu 0x00#6) ∧
    (State.reset.withFetchWord 8 0x29).fetch = .word (.alu 0x29#6) := by decide

/-- The very next step runs the placed operation. -/
theorem test_step_of_withFetchWord :
    look (step (State.reset.withFetchWord 12 0x288)) (fun t => (t.k, t.upc)) =
      some ({ State.reset.k with k1 := 17#16 }, 34#7) ∧
    look (step (State.reset.withFetchWord 2 0b10)) (fun t => (t.rspErr, t.rspValid)) = some (0b10#2, true) := by
  decide

/-! ### The ALU functions (V4 to V6) -/

theorem test_add16 :
    look (exec .add16 (withAlu 0xffff 0x0001)) (·.alu.y) = some 0x0000#16 ∧
    look (exec .add16 (withAlu 0x4602 0x4567)) (·.alu.y) = some 0x8b69#16 := by decide

theorem test_sub16 :
    look (exec .sub16 (withAlu 0x0000 0x0001)) (·.alu.y) = some 0xffff#16 ∧
    look (exec .sub16 (withAlu 0x1234 0xedcc)) (·.alu.y) = some 0x2468#16 := by decide

theorem test_rol16 :
    look (exec (.rol16 9) (withAlu 0x0123 0)) (·.alu.y) = some 0x4602#16 ∧
    look (exec (.rol16 15) (withAlu 0xabcd 0)) (·.alu.y) = some 0xd5e6#16 ∧
    look (exec (.rol16 0) (withAlu 0x1234 0)) (·.alu.y) = some 0x1234#16 := by decide

theorem test_ror16 :
    ror16 0x0123#16 9 = 0x9180#16 ∧ ror16 0x8001#16 1 = 0xc000#16 ∧ ror16 0x1234#16 0 = 0x1234#16 := by decide

theorem test_xor16 :
    look (exec .xor16 (withAlu 0x159d 0x8b69)) (·.alu.y) = some 0x9ef4#16 ∧
    look (exec .xor16 (withAlu 0x1234 0xffff)) (·.alu.y) = some 0xedcb#16 := by decide

/-! ### The ARX pair (V10, V11) -/

theorem test_a :
    look (exec (.a .zero) (withX (blk 0x0123 0x4567 0x1111 0x2222))) (·.x) =
      some (blk 0x8b69 0x9ef4 0x1111 0x2222) ∧
    look (exec (.a .one) (withX (blk 0x1111 0x2222 0x8000 0x8000))) (·.x) =
      some (blk 0x1111 0x2222 0x8100 0x8102) := by decide

theorem test_ainv :
    look (exec (.ainv .zero) (withX (blk 0x0123 0x4567 0x1111 0x2222))) (·.x) =
      some (blk 0x0978 0x1111 0x1111 0x2222) ∧
    look (exec (.ainv .one) (withX (blk 0x1111 0x2222 0x0000 0x0001))) (·.x) =
      some (blk 0x1111 0x2222 0x0060 0x4000) := by decide

/-! ### The linear layer (V14, V15) -/

theorem test_l2 :
    look (exec .l2 (withX (blk 0x0123 0x4567 0x89ab 0xcdef))) (·.x) =
      some (blk 0xcccc 0xcccc 0x0123 0x4567) ∧
    look (exec .l2 (withX (blk 0x8c73 0xffa6 0x7ff7 0x42c8))) (·.x) =
      some (blk 0x26f7 0x681d 0x8c73 0xffa6) := by decide

theorem test_l2inv :
    look (exec .l2inv (withX (blk 0x1234 0x1234 0x5678 0x9abc))) (·.x) =
      some (blk 0x5678 0x9abc 0x8080 0x4c44) ∧
    look (exec .l2inv (withX (blk 0x0000 0x0000 0x1111 0x2222))) (·.x) =
      some (blk 0x1111 0x2222 0x2222 0x1111) := by decide

/-! ### The key schedule (V16, V17, V20, V21) -/

/-- V16: `KST 16` writes flat addresses 96 to 101 and nothing else. -/
theorem test_kst :
    look (exec (.kst 16) keying) (fun t => (t.rk.drop 6, t.upc)) =
      some ([(96, 0x0011#16), (97, 0x2233#16), (98, 0x4455#16), (99, 0x6677#16), (100, 0x8899#16), (101, 0xaabb#16)],
        2#7) ∧
    look (exec (.kst 16) keying) (fun t => t.rk.take 6) = some keying.rk := by decide

/-- V17, the first row (counter 1) and the all-ones row with counter 17. -/
theorem test_kperm :
    look (exec (.kperm 1) keying) (·.k) =
      some { k0 := 0xccdd, k1 := 0xef00, k2 := 0x4433, k3 := 0xccff
             k4 := 0x8888, k5 := 0x3376, k6 := 0x8899, k7 := 0xaabb } ∧
    look (exec (.kperm 17) { keying with k := keyOfPort (BitVec.allOnes 128) }) (·.k) =
      some { k0 := 0xffff, k1 := 0x0010, k2 := 0xfffe, k3 := 0x0001
             k4 := 0xfffd, k5 := 0x0000, k6 := 0xffff, k7 := 0xffff } := by decide

/-- V20, V21: the whole table of the source's key, and the buffer it ends with. -/
theorem test_keySchedule_kat :
    (∀ g ≤ 16, ∀ j ≤ 5, (keyed.rk).lookup (tableAddr g j) = some (keySchedule (keyOfPort katKey) g j)) ∧
    keyBufAfter (keyOfPort katKey) 17 =
      { k0 := 0x5585, k1 := 0x9723, k2 := 0xe814, k3 := 0x25bd
        k4 := 0x09b6, k5 := 0xd244, k6 := 0x6fa6, k7 := 0x4b08 } := by decide

/-! ### The Permutation Engine (V18, V19, V1) -/

theorem test_ark :
    look (exec (.ark 1 2 .one) (encAt 10 (blk 0x0123 0x4567 0x89ab 0xcdef))) (·.x) =
      some (blk 0x0123 0x4567 0x0123 0xfe99) ∧
    look (exec (.ark 16 0 .zero) (encAt 104 (blk 0x0123 0x4567 0x89ab 0xcdef))) (·.x) =
      some (blk 0x5419 0x360d 0x89ab 0xcdef) := by decide

theorem test_end :
    look (exec .endCmd (encAt 106 (blk 0x2bbe 0xf152 0x01f5 0x5f98)))
        (fun t => ((t.rspData, t.rspErr, t.rspValid), t.op, t.upc, t.keyValid)) =
      some ((0x2bbef15201f55f98#64, 0b00#2, true), .idle, 0#7, true) ∧
    look (exec .endCmd { keying with upc := 34, rspData := 5 })
        (fun t => ((t.rspData, t.rspErr, t.rspValid), t.op, t.upc, t.keyValid)) =
      some ((5#64, 0b00#2, true), .idle, 0#7, true) := by decide

/-- The table V20 (test_keySchedule_kat shows that it is the key's) as a function of group and word. -/
def katRk : KeyTable := fun g j => BitVec.ofNat 16 (tableV20.getD (6 * g + j) 0)

/-- R163: the block state after each of the eight steps of the known-answer encryption. -/
theorem test_encSteps_kat :
    encStep katRk (blk 0x0123 0x4567 0x89ab 0xcdef) 0 = blk 0x26f7 0x681d 0x8c73 0xffa6 ∧
    encStep katRk (blk 0x26f7 0x681d 0x8c73 0xffa6) 1 = blk 0xf13e 0x6e39 0xa981 0x2083 ∧
    encStep katRk (blk 0xf13e 0x6e39 0xa981 0x2083) 2 = blk 0x3f75 0x341d 0x3b55 0x5a17 ∧
    encStep katRk (blk 0x3f75 0x341d 0x3b55 0x5a17) 3 = blk 0xfc15 0xa243 0x88ba 0xce29 ∧
    encStep katRk (blk 0xfc15 0xa243 0x88ba 0xce29) 4 = blk 0x0320 0xa372 0x2c9a 0x1d28 ∧
    encStep katRk (blk 0x0320 0xa372 0x2c9a 0x1d28) 5 = blk 0x8043 0x02c0 0x4edd 0xcfe6 ∧
    encStep katRk (blk 0x8043 0x02c0 0x4edd 0xcfe6) 6 = blk 0x2fbd 0x4135 0x7421 0xd34a ∧
    encStep katRk (blk 0x2fbd 0x4135 0x7421 0xd34a) 7 = blk 0x7e84 0x8238 0x2057 0xf31f := by decide

/-- R163: the same states met in reverse by the decryption of the source's ciphertext. -/
theorem test_decSteps_kat :
    decStep katRk (blk 0x7e84 0x8238 0x2057 0xf31f) 7 = blk 0x2fbd 0x4135 0x7421 0xd34a ∧
    decStep katRk (blk 0x2fbd 0x4135 0x7421 0xd34a) 6 = blk 0x8043 0x02c0 0x4edd 0xcfe6 ∧
    decStep katRk (blk 0x8043 0x02c0 0x4edd 0xcfe6) 5 = blk 0x0320 0xa372 0x2c9a 0x1d28 ∧
    decStep katRk (blk 0x0320 0xa372 0x2c9a 0x1d28) 4 = blk 0xfc15 0xa243 0x88ba 0xce29 ∧
    decStep katRk (blk 0xfc15 0xa243 0x88ba 0xce29) 3 = blk 0x3f75 0x341d 0x3b55 0x5a17 ∧
    decStep katRk (blk 0x3f75 0x341d 0x3b55 0x5a17) 2 = blk 0xf13e 0x6e39 0xa981 0x2083 ∧
    decStep katRk (blk 0xf13e 0x6e39 0xa981 0x2083) 1 = blk 0x26f7 0x681d 0x8c73 0xffa6 ∧
    decStep katRk (blk 0x26f7 0x681d 0x8c73 0xffa6) 0 = blk 0x0123 0x4567 0x89ab 0xcdef := by decide

/-- V1, both ways: the source's ciphertext. -/
theorem test_kat :
    portOfBlock (encryptBlock katRk (blockOfPort katBlock)) = 0x2bbef15201f55f98#64 ∧
    portOfBlock (decryptBlock katRk (blockOfPort 0x2bbef15201f55f98#64)) = katBlock := by
  have hp : blockOfPort katBlock = blk 0x0123 0x4567 0x89ab 0xcdef := by decide
  have hc : whiten katRk (blockOfPort 0x2bbef15201f55f98#64) = blk 0x7e84 0x8238 0x2057 0xf31f := by decide
  have hw : portOfBlock (whiten katRk (blk 0x7e84 0x8238 0x2057 0xf31f)) = 0x2bbef15201f55f98#64 := by decide
  have hq : portOfBlock (blk 0x0123 0x4567 0x89ab 0xcdef) = katBlock := by decide
  simp only [encryptBlock, decryptBlock, List.foldl, hp, hc, test_encSteps_kat, test_decSteps_kat, hw, hq,
    and_self]

/-! ### Acceptance, faults and reset (V27, V28) -/

theorem test_illegal :
    look (step { keyed with host := [{ Ports.quiet with cmdValid := true }] })
        (fun t => (t.rspErr, t.rspValid, t.keyValid, t.op)) = some (0b01#2, true, true, .idle) := by decide

theorem test_keyexp :
    look (step { keyed with rspErr := 0b01#2, host := [(HostCmd.keyexp katKey).ports] })
        (fun t => ((t.k.k0, t.k.k7), (t.keyValid, t.rspValid, t.rspErr), t.op, t.upc)) =
      some ((0x0011#16, 0xeeff#16), (false, false, 0b01#2), .keyexp, 0#7) := by decide

theorem test_enc :
    look (step { keyed with host := [(HostCmd.enc 0x0102030405060708#64).ports] })
        (fun t => (t.x, t.rspValid, t.op)) = some (blk 0x0102 0x0304 0x0506 0x0708, false, .enc) ∧
    look (step (withPort (HostCmd.enc 1).ports)) (fun t => (t.x, t.rspErr, t.rspValid, t.op)) =
      some (State.reset.x, 0b10#2, true, .idle) := by decide

theorem test_dec :
    look (step { keyed with host := [(HostCmd.dec katBlock).ports] })
        (fun t => (t.x, t.rspValid, t.op)) = some (blk 0x0123 0x4567 0x89ab 0xcdef, false, .dec) ∧
    look (step (withPort (HostCmd.dec 1).ports)) (fun t => (t.rspErr, t.rspValid)) = some (0b10#2, true) := by
  decide

/-- V28: a command presented at `OP = 01`, `UPC = 7` is not accepted, and a reset there is. -/
theorem test_busy_and_reset :
    look (step { keying with upc := 7, host := [(HostCmd.enc 1).ports] }) (fun t => (t.op, t.upc, t.rspValid)) =
      some (.keyexp, 8#7, false) ∧
    look (step { keying with upc := 7, host := [{ (HostCmd.enc 1).ports with rst := true }] })
        (fun t => (t.op, t.upc, t.keyValid, t.rspValid, t.rspErr)) = some (.idle, 0#7, false, false, 0b00#2) := by
  decide

/-! ### Witnesses: states and operands that meet the hypotheses of the obligations -/

/-- A port value that presents a command, with `rst_i = 0`. -/
def readyWith (valid : Bool) (op : BitVec 2) (kv : Bool) : State :=
  { State.reset with keyValid := kv, host := [{ Ports.quiet with cmdValid := valid, cmdOp := op }] }

/-- An operation placed straight on the datapath. -/
def directly (w : OpWord) : State := { State.reset with direct := some w }

/-- The invariant holds in a state where a key is present. -/
theorem keyed_inv : keyed.Inv where
  table_wf := by decide
  idle_upc := fun _ => rfl
  upc_range := fun h => absurd rfl h
  err_legal := by decide
  busy_no_response := fun h => absurd rfl h
  keyexp_no_key := fun h => absurd h (by decide)
  block_has_key := fun _ => rfl
  no_key_response := fun _ h => absurd h (by decide)
  key_written := fun _ => by decide
  keyexp_written := fun h => absurd h (by decide)
  no_direct := rfl

/-- The invariant holds in the middle of a KEYEXP. -/
theorem keying_inv : keying.Inv where
  table_wf := by decide
  idle_upc := fun h => absurd h (by decide)
  upc_range := fun _ => by decide
  err_legal := by decide
  busy_no_response := fun _ => rfl
  keyexp_no_key := fun _ => rfl
  block_has_key := fun h => absurd h (by decide)
  no_key_response := fun h => absurd h (by decide)
  key_written := fun h => absurd h (by decide)
  keyexp_written := fun _ => by decide
  no_direct := rfl

/-- The invariant holds in the middle of an ENC. -/
theorem encAt_inv : (encAt 10 (blk 1 2 3 4)).Inv where
  table_wf := by decide
  idle_upc := fun h => absurd h (by decide)
  upc_range := fun _ => by decide
  err_legal := by decide
  busy_no_response := fun _ => rfl
  keyexp_no_key := fun h => absurd h (by decide)
  block_has_key := fun _ => rfl
  no_key_response := fun h => absurd h (by decide)
  key_written := fun _ => by decide
  keyexp_written := fun h => absurd h (by decide)
  no_direct := rfl

/-- A word that is listed is what the table reads as. -/
theorem tableWord_of_lookup {s : State} {a : Nat} {w : Word} (h : s.rk.lookup a = some w) : s.tableWord a = w := by
  simp only [State.tableWord, h]

/-- With the source's key present the table is its schedule. -/
theorem keyed_scheduleInv : keyed.ScheduleInv where
  valid_schedule := fun _ =>
    ⟨keyOfPort katKey, fun g hg j hj => tableWord_of_lookup (test_keySchedule_kat.1 g hg j hj)⟩
  partial_schedule := fun h => absurd h (by decide)

theorem keying_lookup :
    ∀ g < groupsStored keying.upc.toNat, ∀ j ≤ 5,
      (keying.rk).lookup (tableAddr g j) = some (keySchedule (keyOfPort katKey) g j) := by decide

/-- In the middle of the KEYEXP the buffer and the stored group are the key's. -/
theorem keying_scheduleInv : keying.ScheduleInv where
  valid_schedule := fun h => absurd h (by decide)
  partial_schedule := fun _ =>
    ⟨keyOfPort katKey, by decide, fun g hg j hj => tableWord_of_lookup (keying_lookup g hg j hj)⟩

theorem witness_DecodeEncodeAgree :
    (Instr.ark 16 2 .one).wellFormed = true ∧ (Instr.kperm 17).wellFormed = true ∧
    (Instr.rol16 15).wellFormed = true ∧ decode (.uop 0x385#12) = .ok (.ark 16 2 .one) := by decide

theorem witness_ReservedWordsHaveNoMeaning :
    ((directly (.uop 0x188#12)).fetch = .word (.uop 0x188#12) ∧
      decode (.uop 0x188#12) = .error .groupOutOfRange) ∧
    ((Instr.kst 17).format = .uop ∧ (Instr.kst 17).wellFormed = false) ∧
    (Instr.kperm 0).wellFormed = false ∧ (Instr.ark 0 3 .one).wellFormed = false := by decide

theorem witness_MicroProgramsAreTotalAndLegal :
    uprog .keyexp 34 = some 0x000#12 ∧ uprog .enc 0 = some 0x300#12 ∧ uprog .dec 105 = some 0x309#12 := by decide

theorem witness_MicroProgramsAreTheLoopNests :
    (16 : Nat) ≤ 16 ∧ (7 : Nat) ≤ 7 ∧ (2 : Nat) ≤ 2 ∧
    (uprog .enc (13 * 7 + 6 * Branch.one.index + 2 * 2)).map .uop =
      some (encode (.ark (2 * 7 + Branch.one.index) 2 .one)) := by decide

theorem witness_StepRunsTheFetchedOperation :
    (keying.ports.rst = false ∧ keying.direct = none ∧ keying.op ≠ .idle ∧
      uprog keying.op keying.upc.toNat = some 0x208#12 ∧ decode (.uop 0x208#12) = .ok (.kperm 1)) ∧
    ((readyWith true 0b11#2 true).ports.rst = false ∧ (readyWith true 0b11#2 true).direct = none ∧
      (readyWith true 0b11#2 true).op = .idle ∧ (readyWith true 0b11#2 true).ports.cmdValid = true ∧
      decode (.cmd (readyWith true 0b11#2 true).ports.cmdOp) = .ok .dec) ∧
    (State.reset.ports.rst = false ∧ State.reset.direct = none ∧ State.reset.op = .idle ∧
      State.reset.ports.cmdValid = false) ∧
    ((directly (.alu 0x30#6)).ports.rst = false ∧ (directly (.alu 0x30#6)).direct = some (.alu 0x30#6) ∧
      decode (.alu 0x30#6) = .ok .xor16) := by decide

/-- One state for each clause: no command, then the codes `00`, `01`, `10`/`11` without and with a key; a busy
CORE and a reset edge with a command presented. -/
theorem witness_AcceptanceByCodeAndKeyValid :
    (∀ v ∈ [true, false], ∀ c ∈ [0b00#2, 0b01#2, 0b10#2, 0b11#2], ∀ kv ∈ [true, false],
      (readyWith v c kv).ports.rst = false ∧ (readyWith v c kv).direct = none ∧ (readyWith v c kv).op = .idle ∧
      (readyWith v c kv).ports.cmdValid = v ∧ (readyWith v c kv).ports.cmdOp = c ∧
      (readyWith v c kv).keyValid = kv) ∧
    (keying.op ≠ .idle ∧ (HostCmd.enc 1).ports.rst = keying.ports.rst) ∧
    ({ keying with host := [{ (HostCmd.enc 1).ports with rst := true }] } : State).ports.rst = true := by decide

theorem witness_BusyCoreIgnoresThePorts :
    keying.cmdReadyO = false ∧ keying.direct = none ∧ (HostCmd.enc 1).ports.rst = keying.ports.rst := by decide

theorem witness_ResetClearsControl :
    ({ keying with host := [{ (HostCmd.enc 1).ports with rst := true }] } : State).ports.rst = true := by decide

theorem witness_KstStoresTheGroup : (0 : Nat) ≤ 16 ∧ (16 : Nat) ≤ 16 ∧ groupOk 16 = true ∧ groupOk 17 = false := by
  decide

theorem witness_KpermPermutesTheBuffer :
    ((1 : Nat) ≤ 1 ∧ (1 : Nat) ≤ 17) ∧ ((1 : Nat) ≤ 17 ∧ (17 : Nat) ≤ 17) ∧ counterOk 18 = false := by decide

theorem witness_ArkXorsTheRoundKey :
    ((0 : Nat) ≤ 16 ∧ (0 : Nat) ≤ 2) ∧ ((16 : Nat) ≤ 16 ∧ (2 : Nat) ≤ 2) ∧ roundOk 3 = false := by decide

theorem witness_EndWritesTheResponse :
    keying.op = .keyexp ∧ (encAt 106 (blk 0 0 0 0)).op = .enc ∧ ({ keyed with op := .dec } : State).op = .dec ∧
    (Instr.kst 16).format = .uop ∧ (Instr.kst 16).wellFormed = true ∧ Instr.kst 16 ≠ .endCmd := by decide

theorem witness_RolMovesEveryBit :
    (15 : Nat) ≤ 15 ∧ (15 : Nat) < 16 ∧ encode (.rol16 15) = .alu 0b101111#6 := by decide

theorem witness_ReservedCodeFaults : State.reset.op = .idle := by decide

theorem witness_KeyexpAcceptance : keyed.op = .idle := by decide

theorem witness_BlockCommandAcceptance : keyed.op = .idle ∧ keyed.keyValid = true := by decide

theorem witness_NoKeyFault : State.reset.op = .idle ∧ State.reset.keyValid = false := by decide

theorem witness_CommandsWhileBusyDoNothing :
    (∀ i ∈ [Instr.illegal, .keyexp, .enc, .dec], i.format = .cmd) ∧ keying.op ≠ .idle := by decide

theorem witness_PortsAreBigEndian : (0 : Nat) < 8 ∧ (7 : Nat) < 8 ∧ (keyOfPort katKey).word 7 = 0xeeff#16 := by decide

theorem witness_BranchesAreIndependent :
    (branchOf (.ark 16 2 .zero) = some .zero ∧ branchOf (.ainv .one) = some .one ∧ Branch.zero ≠ .one ∧
      (Instr.ark 16 2 .zero).wellFormed = true ∧ (Instr.ainv .one).wellFormed = true) ∧
    ((16 : Nat) ≤ 16 ∧ (2 : Nat) ≤ 2) := by decide

theorem witness_KeyScheduleRecurrence : (0 : Nat) ≤ 15 ∧ (15 : Nat) ≤ 15 ∧ (5 : Nat) ≤ 5 := by decide

theorem noReset_of_single {s : State} {p : Ports} (n : Nat) (hs : s.host = [p]) (hp : p.rst = false) :
    s.NoResetFor n := by
  intro q hq
  rw [hs] at hq
  have h := List.mem_of_mem_take hq
  simp only [List.mem_singleton] at h
  rw [h, hp]

theorem witness_KeyexpBuildsTheSchedule :
    (withPort (HostCmd.keyexp katKey).ports).op = .idle ∧ (withPort (HostCmd.keyexp katKey).ports).direct = none ∧
    (withPort (HostCmd.keyexp katKey).ports).ports.cmdValid = true ∧
    (withPort (HostCmd.keyexp katKey).ports).ports.cmdOp = 0b01#2 ∧
    (withPort (HostCmd.keyexp katKey).ports).NoResetFor 36 :=
  ⟨rfl, rfl, rfl, rfl, noReset_of_single 36 rfl rfl⟩

/-- A ready CORE with the source's key, presented a command. -/
def keyedWith (p : Ports) : State := { keyed with host := [p] }

theorem witness_EncEncryptsTheBlock :
    ((keyedWith (HostCmd.enc katBlock).ports).op = .idle ∧ (keyedWith (HostCmd.enc katBlock).ports).direct = none ∧
      (keyedWith (HostCmd.enc katBlock).ports).ports.cmdValid = true ∧
      (keyedWith (HostCmd.enc katBlock).ports).ports.cmdOp = 0b10#2 ∧
      (keyedWith (HostCmd.enc katBlock).ports).NoResetFor 108 ∧
      (keyedWith (HostCmd.enc katBlock).ports).keyValid = true) ∧
    ((withPort (HostCmd.enc katBlock).ports).ports.cmdOp = 0b10#2 ∧
      (withPort (HostCmd.enc katBlock).ports).NoResetFor 108 ∧
      (withPort (HostCmd.enc katBlock).ports).keyValid = false) :=
  ⟨⟨rfl, rfl, rfl, rfl, noReset_of_single 108 rfl rfl, rfl⟩, rfl, noReset_of_single 108 rfl rfl, rfl⟩

theorem witness_DecDecryptsTheBlock :
    ((keyedWith (HostCmd.dec katBlock).ports).op = .idle ∧ (keyedWith (HostCmd.dec katBlock).ports).direct = none ∧
      (keyedWith (HostCmd.dec katBlock).ports).ports.cmdValid = true ∧
      (keyedWith (HostCmd.dec katBlock).ports).ports.cmdOp = 0b11#2 ∧
      (keyedWith (HostCmd.dec katBlock).ports).NoResetFor 108 ∧
      (keyedWith (HostCmd.dec katBlock).ports).keyValid = true) ∧
    ((withPort (HostCmd.dec katBlock).ports).ports.cmdOp = 0b11#2 ∧
      (withPort (HostCmd.dec katBlock).ports).NoResetFor 108 ∧
      (withPort (HostCmd.dec katBlock).ports).keyValid = false) :=
  ⟨⟨rfl, rfl, rfl, rfl, noReset_of_single 108 rfl rfl, rfl⟩, rfl, noReset_of_single 108 rfl rfl, rfl⟩

/-- With a key: the abstract table is the state's; and after reset, with none. -/
theorem witness_CoreRefinesTheTransactions :
    (keyed.op = .idle ∧ keyed.direct = none ∧
      ({ table := keyed.rkWord, valid := true } : Abstract).valid = keyed.keyValid ∧
      (({ table := keyed.rkWord, valid := true } : Abstract).valid = true → ∀ g j, g ≤ 16 → j ≤ 5 →
        ({ table := keyed.rkWord, valid := true } : Abstract).table g j = keyed.rkWord g j)) ∧
    (State.reset.op = .idle ∧ State.reset.direct = none ∧
      ({ table := katRk, valid := false } : Abstract).valid = State.reset.keyValid) :=
  ⟨⟨rfl, rfl, rfl, fun _ _ _ _ _ => rfl⟩, rfl, rfl, rfl⟩

/-- A KEYEXP at its first KPERM, a ready CORE and an ENC meet the invariant, and each steps. -/
theorem witness_StepKeepsTheInvariant :
    (keying.Inv ∧ ∃ t, step keying = .next t) ∧ (keyed.Inv ∧ ∃ t, step keyed = .next t) ∧
    ((encAt 10 (blk 1 2 3 4)).Inv ∧ ∃ t, step (encAt 10 (blk 1 2 3 4)) = .next t) :=
  ⟨⟨keying_inv, _, rfl⟩, ⟨keyed_inv, _, rfl⟩, encAt_inv, _, rfl⟩

theorem witness_StepNeverStops : keying.Inv := keying_inv

theorem witness_StepKeepsTheScheduleInvariant :
    (keying.Inv ∧ keying.ScheduleInv ∧ ∃ t, step keying = .next t) ∧
    (keyed.Inv ∧ keyed.ScheduleInv ∧ ∃ t, step keyed = .next t) :=
  ⟨⟨keying_inv, keying_scheduleInv, _, rfl⟩, keyed_inv, keyed_scheduleInv, _, rfl⟩

theorem witness_ArkReadsOnlyWrittenWords :
    (encAt 10 (blk 1 2 3 4)).Inv ∧ (encAt 10 (blk 1 2 3 4)).fetch = .word (.uop 0x30d#12) ∧
    decode (.uop 0x30d#12) = .ok (.ark 1 2 .one) :=
  ⟨encAt_inv, by decide, by decide⟩

theorem witness_ResponseOnlyAtEnd :
    (encAt 105 (blk 1 2 3 4)).ports.rst = false ∧ (encAt 105 (blk 1 2 3 4)).direct = none ∧
    (encAt 105 (blk 1 2 3 4)).op ≠ .idle ∧
    (encAt 105 (blk 1 2 3 4)).upc.toNat < lastUpc (encAt 105 (blk 1 2 3 4)).op := by decide

/-- At the first and at the last micro-operation of an ENC. -/
theorem witness_EveryCommandEnds :
    ∀ n ∈ [0, 106],
      (encAt n (blk 1 2 3 4)).direct = none ∧ (encAt n (blk 1 2 3 4)).op ≠ .idle ∧
      (encAt n (blk 1 2 3 4)).upc.toNat ≤ lastUpc (encAt n (blk 1 2 3 4)).op ∧
      (∀ p ∈ (encAt n (blk 1 2 3 4)).host.take
        (lastUpc (encAt n (blk 1 2 3 4)).op - (encAt n (blk 1 2 3 4)).upc.toNat + 1), p.rst = false) := by decide

theorem witness_TableChangesOnlyInKeyexp :
    (∃ t, step (encAt 1 (blk 1 2 3 4)) = .next t) ∧ (encAt 1 (blk 1 2 3 4)).ports.rst = false ∧
    (encAt 1 (blk 1 2 3 4)).direct = none ∧ (encAt 1 (blk 1 2 3 4)).op ≠ .keyexp :=
  ⟨⟨_, rfl⟩, rfl, rfl, by decide⟩

/-- `KEY_VALID` rises at the END of a KEYEXP; it falls at the acceptance of one, and at a reset. -/
theorem witness_KeyValidChangesOnlyByKeyexp :
    (∃ s t : State, step s = .next t ∧ s.direct = none ∧ s.keyValid = false ∧ t.keyValid = true) ∧
    (∃ s t : State, step s = .next t ∧ s.direct = none ∧ s.keyValid = true ∧ t.keyValid = false ∧
      s.ports.rst = false) ∧
    (∃ s t : State, step s = .next t ∧ s.direct = none ∧ s.keyValid = true ∧ t.keyValid = false ∧
      s.ports.rst = true) :=
  ⟨⟨{ keying with upc := 34 }, _, rfl, rfl, rfl, rfl⟩,
    ⟨keyedWith (HostCmd.keyexp katKey).ports, _, rfl, rfl, rfl, rfl, rfl⟩,
    ⟨keyedWith { Ports.quiet with rst := true }, _, rfl, rfl, rfl, rfl, rfl⟩⟩

/-- Two ENC with different blocks at the same place. -/
theorem witness_ControlIsIndependentOfData :
    (encAt 12 (blk 1 2 3 4)).SameControl (encAt 12 (blk 5 6 7 8)) ∧
    (∃ t, step (encAt 12 (blk 1 2 3 4)) = .next t) :=
  ⟨⟨rfl, rfl, rfl, rfl, rfl, rfl, rfl⟩, _, rfl⟩

end Sys2Proof.Tests
end

section
/-! PROOF. The family 10_state.md: what one edge can do to a CORE with nothing placed on its datapath, the
invariant and the schedule invariant, and what decides which operation runs. -/

namespace Sys2Proof.Machine

/-! ### UPC, the groups stored, and the command in execution -/

theorem lastUpc_le (op : Op) : lastUpc op ≤ 106 := by cases op <;> decide

theorem upc_succ_toNat {u : BitVec 7} {op : Op} (h : u.toNat < lastUpc op) :
    (u + 1).toNat = u.toNat + 1 := by
  have hle := lastUpc_le op
  rw [BitVec.toNat_add, show (1 : BitVec 7).toNat = 1 from rfl]
  omega

/-- Before `KST c` the groups 0 to `c - 1` are stored (R92). -/
theorem groupsStored_even (c : Nat) : groupsStored (2 * c) = c := by simp only [groupsStored]; omega

/-- After `KST c` the groups 0 to `c` are stored (R92). -/
theorem groupsStored_odd (c : Nat) : groupsStored (2 * c + 1) = c + 1 := by simp only [groupsStored]; omega

@[simp] theorem groupsStored_zero : groupsStored 0 = 0 := rfl

theorem Op.block_of_ne {op : Op} (hi : op ≠ .idle) (hk : op ≠ .keyexp) : op = .enc ∨ op = .dec := by
  cases op
  case idle => exact absurd rfl hi
  case keyexp => exact absurd rfl hk
  case enc => exact .inl rfl
  case dec => exact .inr rfl

theorem Op.ne_idle_of_block {op : Op} (h : op = .enc ∨ op = .dec) : op ≠ .idle := by
  rcases h with rfl | rfl <;> decide

theorem Op.ne_keyexp_of_block {op : Op} (h : op = .enc ∨ op = .dec) : op ≠ .keyexp := by
  rcases h with rfl | rfl <;> decide

/-! ### The micro-programs by kind of micro-operation -/

/-- The micro-operations that write the block state and no other data register. -/
def isBlockUop : Instr → Bool
  | .ark _ _ _ => true
  | .a _ => true
  | .ainv _ => true
  | .l2 => true
  | .l2inv => true
  | _ => false

theorem exec_of_isBlockUop {i : Instr} {s t : State} (hi : isBlockUop i = true) (h : exec i s = .next t) :
    ∃ x, t = (s.setX x).nextUop := by
  cases i
  case ark g r b =>
    simp only [exec, execArk] at h
    split at h
    · split at h
      · injection h with h; exact ⟨_, h.symm⟩
      · cases h
    · cases h
  case a b => injection h with h; exact ⟨_, h.symm⟩
  case ainv b => injection h with h; exact ⟨_, h.symm⟩
  case l2 => injection h with h; exact ⟨_, h.symm⟩
  case l2inv => injection h with h; exact ⟨_, h.symm⟩
  all_goals cases hi

theorem exec_kst {g : Nat} {s t : State} (h : exec (.kst g) s = .next t) :
    t = (s.storeGroup g s.k.storedWords).nextUop := by
  simp only [exec, execKst] at h
  split at h
  · injection h with h; exact h.symm
  · cases h

theorem exec_kperm {c : Nat} {s t : State} (h : exec (.kperm c) s = .next t) :
    t = (s.setK (kpermFn s.k c)).nextUop := by
  simp only [exec, execKperm] at h
  split at h
  · injection h with h; exact h.symm
  · cases h

theorem exec_endCmd {s t : State} (h : exec .endCmd s = .next t) : t = s.endCommand := by
  injection h with h
  exact h.symm

/-- A micro-program that holds a word at an index is in execution, and the index is in its range (R91). -/
theorem programInstr_range {op : Op} {n : Nat} {i : Instr} (h : programInstr op n = some i) :
    op ≠ .idle ∧ n ≤ lastUpc op := by
  by_contra hc
  have hout : op = .idle ∨ lastUpc op < n := by
    by_cases ho : op = .idle
    · exact .inl ho
    · exact .inr (Nat.lt_of_not_le fun hn => hc ⟨ho, hn⟩)
  simp [programInstr, uprog_outside hout] at h

/-- A micro-program holds well-formed operations only. -/
theorem programInstr_wellFormed {op : Op} {n : Nat} {i : Instr} (h : programInstr op n = some i) :
    i.wellFormed = true := by
  obtain ⟨ho, hn⟩ := programInstr_range h
  obtain ⟨j, hj, hw, -, -⟩ := programInstr_legal ho hn
  rw [h, Option.some.injEq] at hj
  exact hj ▸ hw

/-- The KEYEXP micro-program: `KST c` and `KPERM (c+1)` in turn, then END (R92). -/
theorem programInstr_keyexp_cases {n : Nat} {i : Instr} (h : programInstr .keyexp n = some i) :
    (∃ c ≤ 16, n = 2 * c ∧ i = .kst c) ∨ (∃ c ≤ 16, n = 2 * c + 1 ∧ i = .kperm (c + 1)) ∨
      (n = 34 ∧ i = .endCmd) := by
  have hn : n ≤ 34 := (programInstr_range h).2
  by_cases h34 : n = 34
  · subst h34
    injection h with h
    exact .inr (.inr ⟨rfl, h.symm⟩)
  · rcases Nat.even_or_odd' n with ⟨c, rfl | rfl⟩
    · have hc : c ≤ 16 := by omega
      rw [programInstr_keyexp_even hc, Option.some.injEq] at h
      exact .inl ⟨c, hc, rfl, h.symm⟩
    · have hc : c ≤ 16 := by omega
      rw [programInstr_keyexp_odd hc, Option.some.injEq] at h
      exact .inr (.inl ⟨c, hc, rfl, h.symm⟩)

theorem enc_program_block : ∀ n < 106, (programInstr .enc n).all isBlockUop = true := by decide
theorem dec_program_block : ∀ n < 106, (programInstr .dec n).all isBlockUop = true := by decide

/-- The micro-programs of ENC and DEC: block micro-operations, then END (R93, R94). -/
theorem programInstr_block_cases {op : Op} (ho : op = .enc ∨ op = .dec) {n : Nat} {i : Instr}
    (h : programInstr op n = some i) :
    (n < lastUpc op ∧ isBlockUop i = true) ∨ (n = lastUpc op ∧ i = .endCmd) := by
  obtain ⟨hi, hn⟩ := programInstr_range h
  rcases Nat.lt_or_eq_of_le hn with hlt | heq
  · left
    refine ⟨hlt, ?_⟩
    rcases ho with rfl | rfl
    · simpa [h] using enc_program_block n hlt
    · simpa [h] using dec_program_block n hlt
  · obtain ⟨j, hj, -, -, hend⟩ := programInstr_legal hi hn
    rw [h, Option.some.injEq] at hj
    exact .inr ⟨heq, hj ▸ hend.mpr heq⟩

/-! ### What one edge can do -/

theorem step_of_reset {s : State} (hr : s.ports.rst = true) : step s = .next s.resetEdge.pastEdge := by
  simp only [step, State.fetch_of_reset hr]

/-- With nothing placed on the datapath, an operation runs because it is the command presented to a ready CORE
or the micro-operation of the command in execution (R158, R173). -/
theorem State.fetch_word_cases {s : State} {w : OpWord} {i : Instr} (hr : s.ports.rst = false)
    (hd : s.direct = none) (hf : s.fetch = .word w) (hi : decode w = .ok i) :
    (s.op = .idle ∧ s.ports.cmdValid = true ∧ i = decodeCmd s.ports.cmdOp) ∨
      programInstr s.op s.upc.toNat = some i := by
  by_cases ho : s.op = .idle
  · left
    rw [State.fetch_of_ready hr hd ho] at hf
    split at hf
    · rename_i hv
      injection hf with hf
      subst hf
      injection hi with hi
      exact ⟨ho, hv, hi.symm⟩
    · cases hf
  · right
    rw [State.fetch_of_busy hr hd ho] at hf
    rcases programFetch_cases s.op s.upc.toNat with hp | ⟨v, hv, hp⟩
    · rw [hp] at hf
      cases hf
    · rw [hp] at hf
      injection hf with hf
      subst hf
      simp only [programInstr, hv, hi]

/-- The code of a command tells the command (R81). -/
theorem decodeCmd_cases (w : BitVec 2) :
    decodeCmd w = .illegal ∨ (w = 0b01#2 ∧ decodeCmd w = .keyexp) ∨ decodeCmd w = .enc ∨
      decodeCmd w = .dec := by
  revert w
  decide

/-- `Effect s u`: an edge without a reset takes the registers from `s` to `u`, before the HOST's next port
values are up. One constructor for each thing that can happen. -/
inductive Effect (s : State) : State → Prop
  /-- A ready CORE to which nothing is presented (R173). -/
  | quiet (ho : s.op = .idle) : Effect s s
  /-- The reserved command code at a ready CORE (R191). -/
  | illegal (ho : s.op = .idle) : Effect s (s.faultResponse errIllegalCmd)
  /-- `ENC` or `DEC` at a ready CORE without a key (R192). -/
  | noKey (ho : s.op = .idle) (hk : s.keyValid = false) : Effect s (s.faultResponse errNoKey)
  /-- `KEYEXP` accepted (R174). -/
  | acceptKeyexp (ho : s.op = .idle) (hv : s.ports.cmdValid = true) (hc : s.ports.cmdOp = 0b01#2) :
      Effect s s.acceptKeyexp
  /-- `ENC` or `DEC` accepted (R175). -/
  | acceptBlock (ho : s.op = .idle) (hk : s.keyValid = true) (op : Op) (hb : op = .enc ∨ op = .dec)
      (x : Block) : Effect s ((s.startCommand op).setX x)
  /-- `KST c` of a KEYEXP (R120). -/
  | kst (ho : s.op = .keyexp) (c : Nat) (hc : c ≤ 16) (hu : s.upc.toNat = 2 * c) :
      Effect s (s.storeGroup c s.k.storedWords).nextUop
  /-- `KPERM (c+1)` of a KEYEXP (R121). -/
  | kperm (ho : s.op = .keyexp) (c : Nat) (hc : c ≤ 16) (hu : s.upc.toNat = 2 * c + 1) :
      Effect s (s.setK (kpermFn s.k (c + 1))).nextUop
  /-- A block micro-operation of ENC or DEC (R130, R131, R140, R141, R150). -/
  | blockUop (hb : s.op = .enc ∨ s.op = .dec) (hu : s.upc.toNat < lastUpc s.op) (x : Block) :
      Effect s (s.setX x).nextUop
  /-- END, the last micro-operation of a command (R153). -/
  | endCmd (ho : s.op ≠ .idle) (hu : s.upc.toNat = lastUpc s.op) : Effect s s.endCommand

theorem State.onAcceptance_ready {s u : State} {f : State → State} (ho : s.op = .idle)
    (h : s.onAcceptance f = .next u) : u = f s := by
  rw [State.onAcceptance, if_pos ho] at h
  injection h with h
  exact h.symm

theorem State.onAcceptance_busy {s u : State} {f : State → State} (ho : s.op ≠ .idle)
    (h : s.onAcceptance f = .next u) : u = s := by
  rw [State.onAcceptance, if_neg ho] at h
  injection h with h
  exact h.symm

theorem acceptBlock_effect {s : State} (ho : s.op = .idle) {op : Op} (hb : op = .enc ∨ op = .dec) :
    Effect s (s.acceptBlock op) := by
  unfold State.acceptBlock
  split
  · rename_i hk
    exact .acceptBlock ho hk op hb _
  · rename_i hk
    exact .noKey ho (by simpa using hk)

/-- The four cases of an acceptance (R173). -/
theorem exec_cmd_effect {s u : State} (ho : s.op = .idle) (hv : s.ports.cmdValid = true)
    (he : exec (decodeCmd s.ports.cmdOp) s = .next u) : Effect s u := by
  rcases decodeCmd_cases s.ports.cmdOp with hc | ⟨hw, hc⟩ | hc | hc <;> rw [hc] at he
  · exact State.onAcceptance_ready (f := (·.faultResponse errIllegalCmd)) ho he ▸ .illegal ho
  · exact State.onAcceptance_ready (f := State.acceptKeyexp) ho he ▸ .acceptKeyexp ho hv hw
  · exact State.onAcceptance_ready (f := State.acceptBlock .enc) ho he ▸ acceptBlock_effect ho (.inl rfl)
  · exact State.onAcceptance_ready (f := State.acceptBlock .dec) ho he ▸ acceptBlock_effect ho (.inr rfl)

/-- The micro-operation of the command in execution (R158). -/
theorem exec_program_effect {s u : State} {i : Instr} (hp : programInstr s.op s.upc.toNat = some i)
    (he : exec i s = .next u) : Effect s u := by
  have hi : s.op ≠ .idle := (programInstr_range hp).1
  by_cases hk : s.op = .keyexp
  · rw [hk] at hp
    rcases programInstr_keyexp_cases hp with ⟨c, hc, hu, rfl⟩ | ⟨c, hc, hu, rfl⟩ | ⟨hu, rfl⟩
    · exact exec_kst he ▸ .kst hk c hc hu
    · exact exec_kperm he ▸ .kperm hk c hc hu
    · exact exec_endCmd he ▸ .endCmd hi (by rw [hu, hk]; rfl)
  · have hb := Op.block_of_ne hi hk
    rcases programInstr_block_cases hb hp with ⟨hu, hx⟩ | ⟨hu, rfl⟩
    · obtain ⟨x, rfl⟩ := exec_of_isBlockUop hx he
      exact .blockUop hb hu x
    · exact exec_endCmd he ▸ .endCmd hi hu

/-- Everything a step can have done with nothing placed on the datapath. -/
theorem step_effect {s t : State} (hd : s.direct = none) (h : step s = .next t) :
    (s.ports.rst = true ∧ t = s.resetEdge.pastEdge) ∨
      (s.ports.rst = false ∧ ∃ u, Effect s u ∧ t = u.pastEdge) := by
  rcases step_next_cases h with hreset | ⟨hr, -, ho, -, -, ht⟩ | ⟨hr, w, i, u, hf, hw, he, ht⟩
  · exact .inl hreset
  · exact .inr ⟨hr, s, .quiet ho, ht⟩
  · refine .inr ⟨hr, u, ?_, ht⟩
    rcases State.fetch_word_cases hr hd hf hw with ⟨ho, hv, rfl⟩ | hp
    · exact exec_cmd_effect ho hv he
    · exact exec_program_effect hp he

/-! ### The invariant -/

/-- An idle CORE without a key and with an empty table, as a reset leaves it (R37), meets the invariant. -/
theorem State.inv_of_cleared {s : State} (hrk : s.rk = []) (ho : s.op = .idle) (hu : s.upc = 0)
    (hk : s.keyValid = false) (he : s.rspErr = 0) (hd : s.direct = none) : s.Inv where
  table_wf := by rw [hrk]; rfl
  idle_upc _ := hu
  upc_range hb := absurd ho hb
  err_legal := by rw [he]; decide
  busy_no_response hb := absurd ho hb
  keyexp_no_key _ := hk
  block_has_key hb := absurd ho (Op.ne_idle_of_block hb)
  no_key_response _ _ := hk
  key_written hkey := by simp [hk] at hkey
  keyexp_written hop := by simp [ho] at hop
  no_direct := hd

theorem State.inv_resetEdge (s : State) : s.resetEdge.pastEdge.Inv :=
  State.inv_of_cleared rfl rfl rfl rfl rfl rfl

theorem State.Inv.pastEdge {s : State} (h : s.Inv) : s.pastEdge.Inv := { h with no_direct := rfl }

theorem State.Inv.faultResponse {s : State} (h : s.Inv) (ho : s.op = .idle) {code : BitVec 2}
    (hc : code ≠ 0b11#2) (hk : code = errNoKey → s.keyValid = false) : (s.faultResponse code).Inv :=
  { h with
    err_legal := hc
    busy_no_response := fun hb => absurd ho hb
    no_key_response := fun _ => hk }

theorem State.Inv.acceptKeyexp {s : State} (h : s.Inv) : s.acceptKeyexp.Inv where
  table_wf := h.table_wf
  idle_upc ho := by cases ho
  upc_range _ := Nat.zero_le _
  err_legal := h.err_legal
  busy_no_response _ := rfl
  keyexp_no_key _ := rfl
  block_has_key hb := absurd rfl (Op.ne_keyexp_of_block hb)
  no_key_response hv := by cases hv
  key_written hk := by cases hk
  keyexp_written _ a ha := by simp at ha
  no_direct := h.no_direct

theorem State.Inv.acceptBlock {s : State} (h : s.Inv) (hk : s.keyValid = true) {op : Op}
    (hb : op = .enc ∨ op = .dec) (x : Block) : ((s.startCommand op).setX x).Inv where
  table_wf := h.table_wf
  idle_upc ho := absurd ho (Op.ne_idle_of_block hb)
  upc_range _ := Nat.zero_le _
  err_legal := h.err_legal
  busy_no_response _ := rfl
  keyexp_no_key ho := absurd ho (Op.ne_keyexp_of_block hb)
  block_has_key _ := hk
  no_key_response hv := by cases hv
  key_written := h.key_written
  keyexp_written ho := absurd ho (Op.ne_keyexp_of_block hb)
  no_direct := h.no_direct

/-- A micro-operation other than END keeps the invariant if it keeps the table's form and every word written,
and leaves written what a KEYEXP is to have written one place further on. -/
theorem State.Inv.nextUop {s : State} (h : s.Inv) (hu : s.upc.toNat < lastUpc s.op) {x : Block} {k : KeyBuf}
    {rk : Memory} (hwf : rk.wf = true) (hkeep : ∀ a, s.rk.lists a = true → rk.lists a = true)
    (hgroup : s.op = .keyexp →
      ∀ a < Config.groupWords * groupsStored (s.upc.toNat + 1), rk.lists a = true) :
    ({ s with x := x, k := k, rk := rk }.nextUop).Inv := by
  have ho : s.op ≠ .idle := fun ho => by simp [ho, lastUpc] at hu
  have hupc : ({ s with x := x, k := k, rk := rk }.nextUop).upc.toNat = s.upc.toNat + 1 := upc_succ_toNat hu
  exact
    { h with
      table_wf := hwf
      idle_upc := fun hi => absurd hi ho
      upc_range := fun _ => hupc ▸ hu
      key_written := fun hk a ha => hkeep a (h.key_written hk a ha)
      keyexp_written := hupc ▸ hgroup }

theorem State.Inv.kst {s : State} (h : s.Inv) (ho : s.op = .keyexp) {c : Nat} (hc : c ≤ 16)
    (hu : s.upc.toNat = 2 * c) : (s.storeGroup c s.k.storedWords).nextUop.Inv := by
  have hlen : s.k.storedWords.length = 6 := rfl
  have hlists : ∀ a, (s.rk.memWrite (tableAddr c 0) s.k.storedWords).lists a =
      (decide (6 * c ≤ a ∧ a < 6 * c + 6) || s.rk.lists a) :=
    Memory.lists_memWrite s.rk (6 * c) s.k.storedWords
  refine h.nextUop ?_ ?_ ?_ ?_
  · rw [ho, hu]
    simp only [lastUpc]
    omega
  · refine Memory.wf_memWrite _ ?_ h.table_wf
    rw [hlen]
    simp only [tableAddr, Config.groupWords, Config.tableWords]
    omega
  · intro a ha
    rw [hlists, ha, Bool.or_true]
  · intro _ a ha
    rw [hu, groupsStored_odd] at ha
    simp only [Config.groupWords] at ha
    rw [hlists]
    by_cases hin : 6 * c ≤ a
    · simp only [hin, show a < 6 * c + 6 by omega, and_self, decide_true, Bool.true_or]
    · rw [h.keyexp_written ho a (by rw [hu, groupsStored_even]; exact Nat.lt_of_not_le hin), Bool.or_true]

theorem State.Inv.kperm {s : State} (h : s.Inv) (ho : s.op = .keyexp) {c : Nat} (hc : c ≤ 16)
    (hu : s.upc.toNat = 2 * c + 1) (k : KeyBuf) : (s.setK k).nextUop.Inv := by
  refine h.nextUop ?_ h.table_wf (fun _ ha => ha) fun _ => ?_
  · rw [ho, hu]
    simp only [lastUpc]
    omega
  · have hwritten := h.keyexp_written ho
    rw [hu, groupsStored_odd] at hwritten
    rw [hu, show 2 * c + 1 + 1 = 2 * (c + 1) by omega, groupsStored_even]
    exact hwritten

theorem State.Inv.blockUop {s : State} (h : s.Inv) (hb : s.op = .enc ∨ s.op = .dec)
    (hu : s.upc.toNat < lastUpc s.op) (x : Block) : (s.setX x).nextUop.Inv :=
  h.nextUop hu h.table_wf (fun _ ha => ha) fun ho => absurd ho (Op.ne_keyexp_of_block hb)

/-- At the END of a KEYEXP all 17 groups have been written. -/
theorem State.Inv.keyexp_written_end {s : State} (h : s.Inv) (ho : s.op = .keyexp)
    (hu : s.upc.toNat = lastUpc s.op) : ∀ a < Config.tableWords, s.rk.lists a = true := by
  have hwritten := h.keyexp_written ho
  rw [hu, ho] at hwritten
  exact hwritten

theorem State.Inv.endCommand {s : State} (h : s.Inv) (hu : s.upc.toNat = lastUpc s.op) :
    s.endCommand.Inv where
  table_wf := h.table_wf
  idle_upc _ := rfl
  upc_range ho := absurd rfl ho
  err_legal := (by decide : errOk ≠ 0b11#2)
  busy_no_response ho := absurd rfl ho
  keyexp_no_key ho := by cases ho
  block_has_key hb := absurd rfl (Op.ne_idle_of_block hb)
  no_key_response _ he := by cases he
  key_written hk := by
    by_cases ho : s.op = .keyexp
    · exact h.keyexp_written_end ho hu
    · rw [State.endCommand_keyValid, if_neg ho] at hk
      exact h.key_written hk
  keyexp_written ho := by cases ho
  no_direct := h.no_direct

theorem Effect.keeps_inv {s u : State} (he : Effect s u) (h : s.Inv) : u.Inv := by
  cases he with
  | quiet => exact h
  | illegal ho => exact h.faultResponse ho (by decide) (fun hc => absurd hc (by decide))
  | noKey ho hk => exact h.faultResponse ho (by decide) (fun _ => hk)
  | acceptKeyexp => exact h.acceptKeyexp
  | acceptBlock _ hk _ hb x => exact h.acceptBlock hk hb x
  | kst ho c hc hu => exact h.kst ho hc hu
  | kperm ho c hc hu => exact h.kperm ho hc hu _
  | blockUop hb hu x => exact h.blockUop hb hu x
  | endCmd _ hu => exact h.endCommand hu

/-- Settles O40: a reset edge leads to the control values of R37, and every other edge has one of the effects
of `Effect`, each of which keeps the invariant. -/
theorem stepKeepsTheInvariant : Obligations.StepKeepsTheInvariant := by
  intro s t h hstep
  rcases step_effect h.no_direct hstep with ⟨-, rfl⟩ | ⟨-, u, he, rfl⟩
  · exact s.inv_resetEdge
  · exact (he.keeps_inv h).pastEdge

/-- Settles O39: nothing executes, nothing is shown and the table lists nothing. -/
theorem resetMeetsTheInvariant : Obligations.ResetMeetsTheInvariant :=
  State.inv_of_cleared rfl rfl rfl rfl rfl rfl

/-! ### The schedule invariant -/

/-- A CORE without a key that executes no KEYEXP claims no schedule. -/
theorem State.scheduleInv_of_noKey {s : State} (hk : s.keyValid = false) (ho : s.op ≠ .keyexp) :
    s.ScheduleInv where
  valid_schedule hv := by simp [hk] at hv
  partial_schedule hop := absurd hop ho

/-- Where no KEYEXP executes, what `KEY_VALID` says depends on the table and on `KEY_VALID` alone. -/
theorem State.ScheduleInv.of_same_table {s t : State} (h : s.ScheduleInv) (ho : t.op ≠ .keyexp)
    (hk : t.keyValid = s.keyValid) (hrk : t.rk = s.rk) (hn : t.resets = s.resets) : t.ScheduleInv where
  valid_schedule hv := by
    obtain ⟨key, hkey⟩ := h.valid_schedule (hk ▸ hv)
    exact ⟨key, fun g hg j hj => (State.rkWord_congr hrk hn g j).trans (hkey g hg j hj)⟩
  partial_schedule hop := absurd hop ho

theorem State.ScheduleInv.pastEdge {s : State} (h : s.ScheduleInv) : s.pastEdge.ScheduleInv :=
  ⟨h.valid_schedule, h.partial_schedule⟩

/-- What `KST c` stores of the buffer after `c` permutations is group `c` of the schedule (R124). -/
theorem storedWords_keyBufAfter (key : KeyBuf) (c : Nat) {j : Nat}
    (hj : j < (keyBufAfter key c).storedWords.length) :
    (keyBufAfter key c).storedWords[j] = keySchedule key c j := by
  have hj6 : j < 6 := hj
  interval_cases j <;> rfl

/-- The acceptance of KEYEXP starts the schedule of the key presented (R174). -/
theorem State.scheduleInv_acceptKeyexp (s : State) : s.acceptKeyexp.ScheduleInv where
  valid_schedule hv := by cases hv
  partial_schedule _ := ⟨keyOfPort s.ports.key, by simp [keyBufAfter], fun g hg => by simp at hg⟩

/-- `KST c` stores group `c` of the schedule. -/
theorem State.ScheduleInv.kst {s : State} (h : s.ScheduleInv) (ho : s.op = .keyexp)
    (hk : s.keyValid = false) {c : Nat} (hc : c ≤ 16) (hu : s.upc.toNat = 2 * c) :
    (s.storeGroup c s.k.storedWords).nextUop.ScheduleInv where
  valid_schedule hv := by simp [hk] at hv
  partial_schedule _ := by
    have hlast : s.upc.toNat < lastUpc .keyexp := by simp only [hu, lastUpc]; omega
    obtain ⟨key, hbuf, hstored⟩ := h.partial_schedule ho
    rw [hu, show 2 * c / 2 = c by omega] at hbuf
    rw [hu, groupsStored_even] at hstored
    refine ⟨key, ?_, ?_⟩
    · simp only [State.nextUop_k, State.storeGroup_k, State.nextUop_upc, State.storeGroup_upc,
        upc_succ_toNat hlast, hu, show (2 * c + 1) / 2 = c by omega, hbuf]
    · intro g hg j hj
      simp only [State.nextUop_upc, State.storeGroup_upc, upc_succ_toNat hlast, hu, groupsStored_odd] at hg
      show (s.storeGroup c s.k.storedWords).rkWord g j = _
      by_cases hgc : g = c
      · subst hgc
        rw [State.rkWord_storeGroup_same s g j s.k.storedWords (Nat.lt_succ_of_le hj),
          ← storedWords_keyBufAfter]
        · simp only [hbuf]
        · exact Nat.lt_succ_of_le hj
      · rw [State.rkWord_storeGroup_other s _ hgc hj rfl]
        exact hstored g (by omega) j hj

/-- `KPERM (c+1)` takes the buffer to the next iteration of the schedule. -/
theorem State.ScheduleInv.kperm {s : State} (h : s.ScheduleInv) (ho : s.op = .keyexp)
    (hk : s.keyValid = false) {c : Nat} (hc : c ≤ 16) (hu : s.upc.toNat = 2 * c + 1) :
    (s.setK (kpermFn s.k (c + 1))).nextUop.ScheduleInv where
  valid_schedule hv := by simp [hk] at hv
  partial_schedule _ := by
    have hlast : s.upc.toNat < lastUpc .keyexp := by simp only [hu, lastUpc]; omega
    obtain ⟨key, hbuf, hstored⟩ := h.partial_schedule ho
    rw [hu, show (2 * c + 1) / 2 = c by omega] at hbuf
    rw [hu, groupsStored_odd] at hstored
    have hupc : (s.setK (kpermFn s.k (c + 1))).nextUop.upc.toNat = 2 * (c + 1) := by
      simp only [State.nextUop_upc, State.setK_upc, upc_succ_toNat hlast, hu]
      omega
    rw [hupc, groupsStored_even, show 2 * (c + 1) / 2 = c + 1 by omega]
    exact ⟨key, by rw [State.nextUop_k, State.setK_k, hbuf]; rfl, hstored⟩

/-- The END of a KEYEXP sets `KEY_VALID` over a complete schedule; the END of another command keeps both. -/
theorem State.ScheduleInv.endCommand {s : State} (h : s.ScheduleInv) (hu : s.upc.toNat = lastUpc s.op) :
    s.endCommand.ScheduleInv := by
  by_cases ho : s.op = .keyexp
  · obtain ⟨key, -, hstored⟩ := h.partial_schedule ho
    rw [hu, ho] at hstored
    exact ⟨fun _ => ⟨key, fun g hg => hstored g (Nat.lt_succ_of_le hg)⟩, fun hop => by cases hop⟩
  · exact h.of_same_table (fun hop => by cases hop) (by rw [State.endCommand_keyValid, if_neg ho]) rfl rfl

theorem Effect.keeps_scheduleInv {s u : State} (he : Effect s u) (hinv : s.Inv) (h : s.ScheduleInv) :
    u.ScheduleInv := by
  cases he with
  | quiet => exact h
  | illegal => exact ⟨h.valid_schedule, h.partial_schedule⟩
  | noKey => exact ⟨h.valid_schedule, h.partial_schedule⟩
  | acceptKeyexp => exact s.scheduleInv_acceptKeyexp
  | acceptBlock _ _ _ hb => exact h.of_same_table (Op.ne_keyexp_of_block hb) rfl rfl rfl
  | kst ho c hc hu => exact h.kst ho (hinv.keyexp_no_key ho) hc hu
  | kperm ho c hc hu => exact h.kperm ho (hinv.keyexp_no_key ho) hc hu
  | blockUop hb => exact h.of_same_table (Op.ne_keyexp_of_block hb) rfl rfl rfl
  | endCmd _ hu => exact h.endCommand hu

/-- Settles O43: KEYEXP carries its key's schedule from acceptance to END, and nothing else writes the table
or raises `KEY_VALID`. -/
theorem stepKeepsTheScheduleInvariant : Obligations.StepKeepsTheScheduleInvariant := by
  intro s t hinv h hstep
  rcases step_effect hinv.no_direct hstep with ⟨-, rfl⟩ | ⟨-, u, he, rfl⟩
  · exact State.scheduleInv_of_noKey rfl (fun hop => by cases hop)
  · exact (he.keeps_scheduleInv hinv h).pastEdge

/-- Settles O42: after reset there is no key and no KEYEXP in execution. -/
theorem resetMeetsTheScheduleInvariant : Obligations.ResetMeetsTheScheduleInvariant :=
  State.scheduleInv_of_noKey rfl (by decide)

/-! ### What reads and writes the table, and what changes KEY_VALID -/

/-- Only the micro-programs of ENC and DEC hold an ARK, and its fields are in their ranges. -/
theorem programInstr_ark {op : Op} {n g r : Nat} {b : Branch} (h : programInstr op n = some (.ark g r b)) :
    (op = .enc ∨ op = .dec) ∧ g ≤ 16 ∧ r ≤ 2 := by
  have hop : op ≠ .keyexp := by
    rintro rfl
    rcases programInstr_keyexp_cases h with ⟨_, -, -, hi⟩ | ⟨_, -, -, hi⟩ | ⟨-, hi⟩ <;> cases hi
  have hw := programInstr_wellFormed h
  simp only [Instr.wellFormed, groupOk, roundOk, Bool.and_eq_true, decide_eq_true_eq] at hw
  exact ⟨Op.block_of_ne (programInstr_range h).1 hop, hw⟩

/-- Settles O44: an ARK runs in ENC or DEC only, so there is a key and the whole table has been written. -/
theorem arkReadsOnlyWrittenWords : Obligations.ArkReadsOnlyWrittenWords := by
  intro s w g r b h hf hw
  have hr : s.ports.rst = false := by
    by_contra hr
    rw [State.fetch_of_reset (by simpa using hr)] at hf
    cases hf
  rcases State.fetch_word_cases hr h.no_direct hf hw with ⟨-, -, hi⟩ | hp
  · rcases decodeCmd_cases s.ports.cmdOp with hc | ⟨-, hc⟩ | hc | hc <;> rw [hc] at hi <;> cases hi
  · obtain ⟨hop, hg, hrd⟩ := programInstr_ark hp
    have hwritten := h.key_written (h.block_has_key hop)
    simp only [Config.tableWords] at hwritten
    simp only [tableAddr, Config.groupWords]
    exact ⟨hwritten _ (by omega), hwritten _ (by omega)⟩

/-- Of all effects `KST` alone writes the table's memory. -/
theorem Effect.same_table {s u : State} (he : Effect s u) (ho : s.op ≠ .keyexp) :
    u.rk = s.rk ∧ u.resets = s.resets := by
  cases he with
  | kst hk => exact absurd hk ho
  | kperm hk => exact absurd hk ho
  | _ => exact ⟨rfl, rfl⟩

/-- Settles O47: without a reset the free values of unwritten words stay, and only `KST` writes the table. -/
theorem tableChangesOnlyInKeyexp : Obligations.TableChangesOnlyInKeyexp := by
  intro s t hstep hr hd ho
  rcases step_effect hd hstep with ⟨hr', -⟩ | ⟨-, u, he, rfl⟩
  · rw [hr] at hr'
    cases hr'
  · obtain ⟨hrk, hn⟩ := he.same_table ho
    exact ⟨hrk, State.rkWord_congr hrk hn⟩

/-- An effect keeps `KEY_VALID`, unless it is the END of a KEYEXP or the acceptance of one. -/
theorem Effect.keyValid_cases {s u : State} (he : Effect s u) :
    u.keyValid = s.keyValid ∨
      (u.keyValid = true ∧ s.op = .keyexp ∧ s.upc.toNat = 34) ∨
      (u.keyValid = false ∧ s.op = .idle ∧ s.ports.cmdValid = true ∧ s.ports.cmdOp = 0b01#2) := by
  cases he with
  | acceptKeyexp ho hv hc => exact .inr (.inr ⟨rfl, ho, hv, hc⟩)
  | endCmd _ hu =>
    rw [State.endCommand_keyValid]
    by_cases ho : s.op = .keyexp
    · exact .inr (.inl ⟨if_pos ho, ho, by rw [hu, ho]; rfl⟩)
    · exact .inl (if_neg ho)
  | _ => exact .inl rfl

/-- Settles O48: besides a reset, only the END of a KEYEXP and the acceptance of one write `KEY_VALID`. -/
theorem keyValidChangesOnlyByKeyexp : Obligations.KeyValidChangesOnlyByKeyexp := by
  intro s t hstep hd
  rcases step_effect hd hstep with ⟨hr, rfl⟩ | ⟨hr, u, he, rfl⟩
  · exact ⟨fun _ ht => (by cases ht), fun _ _ => .inl hr⟩
  · simp only [State.pastEdge_keyValid]
    rcases he.keyValid_cases with hsame | ⟨hu, ho, hupc⟩ | ⟨hu, hcmd⟩
    · rw [hsame]
      exact ⟨fun hf ht => by simp [hf] at ht, fun ht hf => by simp [ht] at hf⟩
    · exact ⟨fun _ _ => ⟨ho, hupc, hr⟩, fun _ hf => by simp [hu] at hf⟩
    · exact ⟨fun _ ht => by simp [hu] at ht, fun _ _ => .inr hcmd⟩

/-! ### The control registers after a reset -/

/-- Settles O10: reset has priority over everything and gives the values of R37. -/
theorem resetClearsControl : Obligations.ResetClearsControl := by
  refine ⟨⟨rfl, rfl, rfl, rfl, rfl, rfl⟩, fun s hr => ⟨_, step_of_reset hr, ?_⟩⟩
  exact ⟨rfl, rfl, rfl, rfl, rfl, rfl, rfl⟩

/-! ### Control is independent of data -/

/-- Whether an operation has a meaning does not depend on the state it runs in. -/
theorem exec_next_of_exec_next {i : Instr} {s u : State} (t : State) (h : exec i s = .next u) :
    ∃ v, exec i t = .next v := by
  cases i
  case illegal => exact exec_wellFormed t rfl
  case keyexp => exact exec_wellFormed t rfl
  case enc => exact exec_wellFormed t rfl
  case dec => exact exec_wellFormed t rfl
  case kst g =>
    refine exec_wellFormed t ?_
    simp only [exec, execKst] at h
    split at h
    · assumption
    · cases h
  case kperm c =>
    refine exec_wellFormed t ?_
    simp only [exec, execKperm] at h
    split at h
    · assumption
    · cases h
  case ark g r b =>
    simp only [exec, execArk] at h
    split at h
    · rename_i hg
      split at h
      · rename_i hr
        exact exec_wellFormed t (by simp only [Instr.wellFormed, hg, hr, Bool.and_self])
      · cases h
    · cases h
  all_goals exact ⟨_, rfl⟩

theorem State.SameControl.ports {s t : State} (h : s.SameControl t) :
    s.ports.rst = t.ports.rst ∧ s.ports.cmdValid = t.ports.cmdValid ∧ s.ports.cmdOp = t.ports.cmdOp := by
  have hh := h.host
  unfold State.ports
  cases hs : s.host with
  | nil =>
    rw [hs, List.map_nil, eq_comm, List.map_eq_nil_iff] at hh
    simp [hh]
  | cons p ps =>
    cases ht : t.host with
    | nil => simp [hs, ht] at hh
    | cons q qs =>
      simp only [hs, ht, List.map_cons, List.cons.injEq, Prod.mk.injEq] at hh
      exact hh.1

theorem State.SameControl.fetch {s t : State} (h : s.SameControl t) : s.fetch = t.fetch := by
  obtain ⟨hrst, hvalid, hop⟩ := h.ports
  simp only [State.fetch, hrst, hvalid, hop, h.direct, h.op, h.upc]

theorem State.SameControl.pastEdge {s t : State} (h : s.SameControl t) : s.pastEdge.SameControl t.pastEdge :=
  { h with
    direct := rfl
    host := by simp only [State.pastEdge_host, List.map_tail, h.host] }

theorem State.SameControl.resetEdge {s t : State} (h : s.SameControl t) : s.resetEdge.SameControl t.resetEdge :=
  ⟨rfl, rfl, rfl, rfl, rfl, h.direct, h.host⟩

theorem State.SameControl.faultResponse {s t : State} (h : s.SameControl t) (code : BitVec 2) :
    (s.faultResponse code).SameControl (t.faultResponse code) :=
  { h with rspValid := rfl, rspErr := rfl }

theorem State.SameControl.acceptKeyexp {s t : State} (h : s.SameControl t) :
    s.acceptKeyexp.SameControl t.acceptKeyexp :=
  { h with op := rfl, upc := rfl, keyValid := rfl, rspValid := rfl }

theorem State.SameControl.acceptBlock {s t : State} (h : s.SameControl t) (op : Op) :
    (s.acceptBlock op).SameControl (t.acceptBlock op) := by
  unfold State.acceptBlock
  rw [← h.keyValid]
  split
  · exact { h with op := rfl, upc := rfl, rspValid := rfl }
  · exact h.faultResponse errNoKey

theorem State.SameControl.endCommand {s t : State} (h : s.SameControl t) :
    s.endCommand.SameControl t.endCommand :=
  { h with
    op := rfl
    upc := rfl
    keyValid := by simp only [State.endCommand_keyValid, h.op, h.keyValid]
    rspValid := rfl
    rspErr := rfl }

/-- Both COREs accept what is presented, or both are busy. -/
theorem State.SameControl.onAcceptance {s t u v : State} (h : s.SameControl t) {f : State → State}
    (hf : (f s).SameControl (f t)) (hu : s.onAcceptance f = .next u) (hv : t.onAcceptance f = .next v) :
    u.SameControl v := by
  by_cases ho : s.op = .idle
  · rw [State.onAcceptance_ready ho hu, State.onAcceptance_ready (h.op ▸ ho) hv]
    exact hf
  · rw [State.onAcceptance_busy ho hu, State.onAcceptance_busy (h.op ▸ ho) hv]
    exact h

/-- The same operation keeps the agreement of two states. -/
theorem State.SameControl.exec {s t u v : State} (h : s.SameControl t) {i : Instr}
    (hu : exec i s = .next u) (hv : exec i t = .next v) : u.SameControl v := by
  cases hfmt : i.format with
  | cmd =>
    cases i
    case illegal =>
      exact h.onAcceptance (f := (·.faultResponse errIllegalCmd)) (h.faultResponse errIllegalCmd) hu hv
    case keyexp => exact h.onAcceptance h.acceptKeyexp hu hv
    case enc => exact h.onAcceptance (h.acceptBlock .enc) hu hv
    case dec => exact h.onAcceptance (h.acceptBlock .dec) hu hv
    all_goals cases hfmt
  | uop =>
    by_cases hi : i = .endCmd
    · subst hi
      rw [exec_endCmd hu, exec_endCmd hv]
      exact h.endCommand
    · rw [exec_uop_frame hfmt hi hu, exec_uop_frame hfmt hi hv]
      exact { h with upc := congrArg (· + 1) h.upc }
  | alu =>
    rw [exec_alu_frame hfmt hu, exec_alu_frame hfmt hv]
    exact { h with }

/-- Settles O49: both states fetch the same, whether it has a meaning is the same for both, and no meaning
writes a control register from a data register. -/
theorem controlIsIndependentOfData : Obligations.ControlIsIndependentOfData := by
  intro s t s' h hstep
  rcases step_next_cases hstep with ⟨hr, rfl⟩ | ⟨-, hf, -, -, -, rfl⟩ | ⟨-, w, i, u, hf, hw, hu, rfl⟩
  · exact ⟨_, step_of_reset (h.ports.1 ▸ hr), h.resetEdge.pastEdge⟩
  · refine ⟨t.pastEdge, ?_, h.pastEdge⟩
    simp only [step, ← h.fetch, hf]
  · obtain ⟨v, hv⟩ := exec_next_of_exec_next t hu
    exact ⟨v.pastEdge, step_of_exec (h.fetch ▸ hf) hw hv, (h.exec hu hv).pastEdge⟩

end Sys2Proof.Machine
end

section
/-! PROOF. The family 20_memory.md: the byte order of the wide ports. -/

namespace Sys2Proof.Machine

/-- A word cut out of a bit vector is two bytes, the more significant one at the higher position (R56). -/
theorem toNat_extractLsb'_word {n : Nat} (v : BitVec n) (lo : Nat) :
    (v.extractLsb' lo 16).toNat = 256 * (v.extractLsb' (lo + 8) 8).toNat + (v.extractLsb' lo 8).toNat := by
  have hsplit : v.extractLsb' (lo + 8) 8 ++ v.extractLsb' lo 8 = v.extractLsb' lo 16 :=
    BitVec.extractLsb'_append_extractLsb'_eq_extractLsb' rfl
  rw [← hsplit, BitVec.toNat_append, ← Nat.shiftLeft_add_eq_or_of_lt (v.extractLsb' lo 8).isLt, Nat.shiftLeft_eq,
    Nat.mul_comm]

theorem keyOfPort_word (key : BitVec 128) {i : Nat} (hi : i < 8) : (keyOfPort key).word i = keyWord key i := by
  interval_cases i <;> rfl

/-- Byte `j` of a key is at `key_i[127-8j : 120-8j]` (R57). -/
theorem keyWord_toNat (key : BitVec 128) {i : Nat} (hi : i < 8) :
    (keyWord key i).toNat =
      256 * (key.extractLsb' (120 - 8 * (2 * i)) 8).toNat + (key.extractLsb' (120 - 8 * (2 * i + 1)) 8).toNat := by
  have hhigh : 120 - 8 * (2 * i) = 112 - 16 * i + 8 := by omega
  have hlow : 120 - 8 * (2 * i + 1) = 112 - 16 * i := by omega
  rw [hhigh, hlow]
  exact toNat_extractLsb'_word key (112 - 16 * i)

/-- Byte `j` of a block is at `blk_i[63-8j : 56-8j]` (R58). -/
theorem blkWord_toNat (blk : BitVec 64) {i : Nat} (hi : i < 4) :
    (blkWord blk i).toNat =
      256 * (blk.extractLsb' (56 - 8 * (2 * i)) 8).toNat + (blk.extractLsb' (56 - 8 * (2 * i + 1)) 8).toNat := by
  have hhigh : 56 - 8 * (2 * i) = 48 - 16 * i + 8 := by omega
  have hlow : 56 - 8 * (2 * i + 1) = 48 - 16 * i := by omega
  rw [hhigh, hlow]
  exact toNat_extractLsb'_word blk (48 - 16 * i)

/-- The four words of a port are adjacent and fill it. -/
@[simp] theorem portOfBlock_blockOfPort (blk : BitVec 64) : portOfBlock (blockOfPort blk) = blk := by
  have h01 : blkWord blk 0 ++ blkWord blk 1 = blk.extractLsb' 32 32 :=
    BitVec.extractLsb'_append_extractLsb'_eq_extractLsb' rfl
  have h012 : blk.extractLsb' 32 32 ++ blkWord blk 2 = blk.extractLsb' 16 48 :=
    BitVec.extractLsb'_append_extractLsb'_eq_extractLsb' rfl
  have h0123 : blk.extractLsb' 16 48 ++ blkWord blk 3 = blk.extractLsb' 0 64 :=
    BitVec.extractLsb'_append_extractLsb'_eq_extractLsb' rfl
  calc portOfBlock (blockOfPort blk)
      = blkWord blk 0 ++ blkWord blk 1 ++ blkWord blk 2 ++ blkWord blk 3 := rfl
    _ = blk.extractLsb' 0 64 := by rw [h01, h012, h0123]
    _ = blk := BitVec.extractLsb'_eq_self

/-- A word above the last one appended is a word of what stood there before. -/
theorem extractLsb'_append_word {n : Nat} (v : BitVec n) (w : Word) (lo : Nat) :
    (v ++ w).extractLsb' (lo + 16) 16 = v.extractLsb' lo 16 :=
  BitVec.extractLsb'_append_eq_of_le (Nat.le_add_left 16 lo)

@[simp] theorem blockOfPort_portOfBlock (x : Block) : blockOfPort (portOfBlock x) = x := by
  have h0 : blkWord (portOfBlock x) 0 = x.x0 :=
    (extractLsb'_append_word _ _ 32).trans
      ((extractLsb'_append_word _ _ 16).trans BitVec.extractLsb'_append_eq_left)
  have h1 : blkWord (portOfBlock x) 1 = x.x1 :=
    (extractLsb'_append_word _ _ 16).trans
      ((extractLsb'_append_word _ _ 0).trans BitVec.extractLsb'_append_eq_right)
  have h2 : blkWord (portOfBlock x) 2 = x.x2 :=
    (extractLsb'_append_word _ _ 0).trans BitVec.extractLsb'_append_eq_right
  have h3 : blkWord (portOfBlock x) 3 = x.x3 := BitVec.extractLsb'_append_eq_right
  rw [blockOfPort, h0, h1, h2, h3]

/-- Settles O29: a word of a port is its two bytes, and the words of a block put together are the port again. -/
theorem portsAreBigEndian : Obligations.PortsAreBigEndian := by
  refine ⟨fun key i hi => ?_, fun blk => ?_, portOfBlock_blockOfPort, blockOfPort_portOfBlock⟩
  · rw [keyOfPort_word key hi]
    exact keyWord_toNat key hi
  · exact ⟨blkWord_toNat blk (i := 0) (by decide), blkWord_toNat blk (i := 1) (by decide),
      blkWord_toNat blk (i := 2) (by decide), blkWord_toNat blk (i := 3) (by decide)⟩

end Sys2Proof.Machine
end

section
/-! PROOF. The family 30_encoding.md: the decoder row by row and its agreement with the encoder, the reserved
words, and the micro-programs as words, counted by their loops. -/

namespace Sys2Proof

/-! ### The fields of a word -/

theorem Branch.index_le_one (b : Branch) : b.index ≤ 1 := by cases b <;> decide

@[simp] theorem aluFn_aluWord (fn : BitVec 2) (amt : BitVec 4) : (aluWord fn amt).extractLsb' 4 2 = fn :=
  BitVec.extractLsb'_append_eq_left

@[simp] theorem aluAmt_aluWord (fn : BitVec 2) (amt : BitVec 4) : (aluWord fn amt).extractLsb' 0 4 = amt :=
  BitVec.extractLsb'_append_eq_right

/-! ### The decoder, row by row -/

/-- A check of the decoder lets the operation through exactly when it holds. -/
theorem guard_eq_ok {p : Prop} [Decidable p] {x : Except DecodeError Instr} {e : DecodeError} {i : Instr} :
    (if p then x else .error e) = .ok i ↔ p ∧ x = .ok i := by
  by_cases hp : p <;> simp [hp]

section Rows

variable {g : BitVec 5} {r : BitVec 2} {b : BitVec 1} {amt : BitVec 4} {i : Instr}

theorem decodeUop_endCmd :
    decodeUop (uopWord 0#4 g r b) = .ok i ↔ (g = 0#5 ∧ r = 0#2 ∧ b = 0#1) ∧ .endCmd = i := by
  simp [decodeUop, guard_eq_ok]

theorem decodeUop_kst :
    decodeUop (uopWord 1#4 g r b) = .ok i ↔
      (groupOk g.toNat = true ∧ r = 0#2 ∧ b = 0#1) ∧ .kst g.toNat = i := by
  simp [decodeUop, guard_eq_ok, and_assoc, and_left_comm, -not_and]

theorem decodeUop_kperm :
    decodeUop (uopWord 2#4 g r b) = .ok i ↔
      (counterOk g.toNat = true ∧ r = 0#2 ∧ b = 0#1) ∧ .kperm g.toNat = i := by
  simp [decodeUop, guard_eq_ok, and_assoc, and_left_comm, -not_and]

theorem decodeUop_ark :
    decodeUop (uopWord 3#4 g r b) = .ok i ↔
      (groupOk g.toNat = true ∧ roundOk r.toNat = true) ∧ .ark g.toNat r.toNat (Branch.ofBit b) = i := by
  simp [decodeUop, guard_eq_ok, and_assoc]

theorem decodeUop_a :
    decodeUop (uopWord 4#4 g r b) = .ok i ↔ (g = 0#5 ∧ r = 0#2) ∧ .a (Branch.ofBit b) = i := by
  simp [decodeUop, guard_eq_ok]

theorem decodeUop_ainv :
    decodeUop (uopWord 5#4 g r b) = .ok i ↔ (g = 0#5 ∧ r = 0#2) ∧ .ainv (Branch.ofBit b) = i := by
  simp [decodeUop, guard_eq_ok]

theorem decodeUop_l2 :
    decodeUop (uopWord 6#4 g r b) = .ok i ↔ (g = 0#5 ∧ r = 0#2 ∧ b = 0#1) ∧ .l2 = i := by
  simp [decodeUop, guard_eq_ok]

theorem decodeUop_l2inv :
    decodeUop (uopWord 7#4 g r b) = .ok i ↔ (g = 0#5 ∧ r = 0#2 ∧ b = 0#1) ∧ .l2inv = i := by
  simp [decodeUop, guard_eq_ok]

theorem decodeUop_reservedOpc {opc : BitVec 4} (h : 8 ≤ opc.toNat) :
    decodeUop (uopWord opc g r b) = .error .reservedOpc := by
  simp only [decodeUop, uopOpc_uopWord]
  split
  case h_9 => rfl
  all_goals omega

theorem decodeAlu_add16 : decodeAlu (aluWord 0#2 amt) = .ok i ↔ amt = 0#4 ∧ .add16 = i := by
  simp [decodeAlu, guard_eq_ok]

theorem decodeAlu_sub16 : decodeAlu (aluWord 1#2 amt) = .ok i ↔ amt = 0#4 ∧ .sub16 = i := by
  simp [decodeAlu, guard_eq_ok]

theorem decodeAlu_rol16 : decodeAlu (aluWord 2#2 amt) = .ok i ↔ .rol16 amt.toNat = i := by
  simp [decodeAlu]

theorem decodeAlu_xor16 : decodeAlu (aluWord 3#2 amt) = .ok i ↔ amt = 0#4 ∧ .xor16 = i := by
  simp [decodeAlu, guard_eq_ok]

end Rows

/-! ### Decode and encode -/

theorem opc_cases (opc : BitVec 4) :
    opc = 0#4 ∨ opc = 1#4 ∨ opc = 2#4 ∨ opc = 3#4 ∨ opc = 4#4 ∨ opc = 5#4 ∨ opc = 6#4 ∨ opc = 7#4 ∨
      8 ≤ opc.toNat := by
  revert opc
  decide

theorem fn_cases (fn : BitVec 2) : fn = 0#2 ∨ fn = 1#2 ∨ fn = 2#2 ∨ fn = 3#2 := by
  revert fn
  decide

/-- A well-formed operation is what its word decodes to (R98), operation by operation. -/
theorem decode_encode {i : Instr} (h : i.wellFormed = true) : decode (encode i) = .ok i :=
  match i with
  | .illegal => Laws.RoundTrip.illegal.2 h
  | .keyexp => Laws.RoundTrip.keyexp.2 h
  | .enc => Laws.RoundTrip.enc.2 h
  | .dec => Laws.RoundTrip.dec.2 h
  | .endCmd => Laws.RoundTrip.endCmd.2 h
  | .kst g => (Laws.RoundTrip.kst g).2 h
  | .kperm c => (Laws.RoundTrip.kperm c).2 h
  | .ark g r b => (Laws.RoundTrip.ark g r b).2 h
  | .a b => (Laws.RoundTrip.a b).2 h
  | .ainv b => (Laws.RoundTrip.ainv b).2 h
  | .l2 => Laws.RoundTrip.l2.2 h
  | .l2inv => Laws.RoundTrip.l2inv.2 h
  | .add16 => Laws.RoundTrip.add16.2 h
  | .sub16 => Laws.RoundTrip.sub16.2 h
  | .rol16 n => (Laws.RoundTrip.rol16 n).2 h
  | .xor16 => Laws.RoundTrip.xor16.2 h

/-- All four command codes are commands (R81). -/
theorem encode_decodeCmd (w : BitVec 2) : (decodeCmd w).wellFormed = true ∧ encode (decodeCmd w) = .cmd w := by
  revert w
  decide

theorem encode_of_decodeUop {w : BitVec 12} {i : Instr} (h : decodeUop w = .ok i) :
    i.wellFormed = true ∧ encode i = .uop w := by
  rw [← uopWord_fields w] at h ⊢
  generalize uopOpc w = opc, uopG w = g, uopR w = r, uopB w = b at h ⊢
  rcases opc_cases opc with rfl | rfl | rfl | rfl | rfl | rfl | rfl | rfl | hopc
  · obtain ⟨⟨rfl, rfl, rfl⟩, rfl⟩ := decodeUop_endCmd.mp h
    exact ⟨rfl, rfl⟩
  · obtain ⟨⟨hg, rfl, rfl⟩, rfl⟩ := decodeUop_kst.mp h
    exact ⟨hg, by simp [encode]⟩
  · obtain ⟨⟨hc, rfl, rfl⟩, rfl⟩ := decodeUop_kperm.mp h
    exact ⟨hc, by simp [encode]⟩
  · obtain ⟨⟨hg, hr⟩, rfl⟩ := decodeUop_ark.mp h
    exact ⟨by simp [Instr.wellFormed, hg, hr], by simp [encode]⟩
  · obtain ⟨⟨rfl, rfl⟩, rfl⟩ := decodeUop_a.mp h
    exact ⟨rfl, by simp [encode]⟩
  · obtain ⟨⟨rfl, rfl⟩, rfl⟩ := decodeUop_ainv.mp h
    exact ⟨rfl, by simp [encode]⟩
  · obtain ⟨⟨rfl, rfl, rfl⟩, rfl⟩ := decodeUop_l2.mp h
    exact ⟨rfl, rfl⟩
  · obtain ⟨⟨rfl, rfl, rfl⟩, rfl⟩ := decodeUop_l2inv.mp h
    exact ⟨rfl, rfl⟩
  · rw [decodeUop_reservedOpc hopc] at h
    cases h

theorem encode_of_decodeAlu {w : BitVec 6} {i : Instr} (h : decodeAlu w = .ok i) :
    i.wellFormed = true ∧ encode i = .alu w := by
  rw [← aluWord_fields w] at h ⊢
  generalize w.extractLsb' 4 2 = fn, w.extractLsb' 0 4 = amt at h ⊢
  rcases fn_cases fn with rfl | rfl | rfl | rfl
  · obtain ⟨rfl, rfl⟩ := decodeAlu_add16.mp h
    exact ⟨rfl, rfl⟩
  · obtain ⟨rfl, rfl⟩ := decodeAlu_sub16.mp h
    exact ⟨rfl, rfl⟩
  · obtain rfl := decodeAlu_rol16.mp h
    exact ⟨decide_eq_true (Nat.le_of_lt_succ amt.isLt), by simp [encode]⟩
  · obtain ⟨rfl, rfl⟩ := decodeAlu_xor16.mp h
    exact ⟨rfl, rfl⟩

/-- A word that decodes is the word of the well-formed operation it decodes to, in each format. -/
theorem encode_of_decode {w : OpWord} {i : Instr} (h : decode w = .ok i) : i.wellFormed = true ∧ encode i = w := by
  cases w with
  | cmd w =>
    cases h
    exact encode_decodeCmd w
  | uop w => exact encode_of_decodeUop h
  | alu w => exact encode_of_decodeAlu h

/-- Settles O2: from an operation by its row of the opcode table, from a word by its fields. -/
theorem decodeEncodeAgree : Obligations.DecodeEncodeAgree :=
  ⟨fun _ => decode_encode, fun _ _ => encode_of_decode⟩

/-- Settles O1: a word written out from the tables is the encoder's word for its row, and decodes to it. -/
theorem tableWordsDecode : Obligations.TableWordsDecode :=
  ⟨decode_encode (i := .illegal) rfl, decode_encode (i := .keyexp) rfl,
    decode_encode (i := .enc) rfl, decode_encode (i := .dec) rfl,
    decode_encode (i := .endCmd) rfl, decode_encode (i := .kst 16) rfl,
    decode_encode (i := .kperm 17) rfl, decode_encode (i := .ark 5 2 .one) rfl,
    decode_encode (i := .a .one) rfl, decode_encode (i := .ainv .zero) rfl,
    decode_encode (i := .l2) rfl, decode_encode (i := .l2inv) rfl,
    decode_encode (i := .add16) rfl, decode_encode (i := .sub16) rfl,
    decode_encode (i := .rol16 9) rfl, decode_encode (i := .xor16) rfl⟩

/-! ### Reserved words -/

/-- A word that decodes to `j` under the condition `p`, and to nothing else, is refused when `p` fails. -/
theorem refused_iff {p : Prop} {x : Except DecodeError Instr} {j : Instr} (h : ∀ i, x = .ok i ↔ p ∧ j = i) :
    (∃ e, x = .error e) ↔ ¬p := by
  have hj : x = .ok j ↔ p := by simp [h j]
  rw [← hj]
  cases x with
  | error e => simp
  | ok i => simpa using ((h i).mp rfl).2.symm

/-- A micro-operation word is refused by its row of R89. -/
theorem decodeUop_refused_iff (opc : BitVec 4) (g : BitVec 5) (r : BitVec 2) (b : BitVec 1) :
    (∃ e, decodeUop (uopWord opc g r b) = .error e) ↔
      (8 ≤ opc.toNat ∨
       (opc = 1#4 ∧ (17 ≤ g.toNat ∨ r ≠ 0#2 ∨ b ≠ 0#1)) ∨
       (opc = 2#4 ∧ (g = 0#5 ∨ 18 ≤ g.toNat ∨ r ≠ 0#2 ∨ b ≠ 0#1)) ∨
       (opc = 3#4 ∧ (17 ≤ g.toNat ∨ r = 3#2)) ∨
       ((opc = 4#4 ∨ opc = 5#4) ∧ (g ≠ 0#5 ∨ r ≠ 0#2)) ∨
       ((opc = 0#4 ∨ opc = 6#4 ∨ opc = 7#4) ∧ (g ≠ 0#5 ∨ r ≠ 0#2 ∨ b ≠ 0#1))) := by
  have hgroup : groupOk g.toNat = true ↔ ¬17 ≤ g.toNat := by simp [groupOk, Nat.lt_succ_iff]
  have hcounter : counterOk g.toNat = true ↔ ¬(g = 0#5 ∨ 18 ≤ g.toNat) := by
    simp only [counterOk, Bool.and_eq_true, decide_eq_true_eq, ← BitVec.toNat_inj, BitVec.toNat_ofNat]
    omega
  have hround : roundOk r.toNat = true ↔ ¬r = 3#2 := by
    simp only [roundOk, decide_eq_true_eq, ← BitVec.toNat_inj, BitVec.toNat_ofNat]
    omega
  rcases opc_cases opc with rfl | rfl | rfl | rfl | rfl | rfl | rfl | rfl | hopc
  · simp [refused_iff fun _ => decodeUop_endCmd, imp_iff_not_or]
  · simp [refused_iff fun _ => decodeUop_kst, hgroup, imp_iff_not_or]
  · simp [refused_iff fun _ => decodeUop_kperm, hcounter, imp_iff_not_or, or_assoc]
  · simp [refused_iff fun _ => decodeUop_ark, hgroup, hround, imp_iff_not_or]
  · simp [refused_iff fun _ => decodeUop_a, imp_iff_not_or]
  · simp [refused_iff fun _ => decodeUop_ainv, imp_iff_not_or]
  · simp [refused_iff fun _ => decodeUop_l2, imp_iff_not_or]
  · simp [refused_iff fun _ => decodeUop_l2inv, imp_iff_not_or]
  · simp [decodeUop_reservedOpc hopc, hopc]

/-- An ALU control value is refused when its amount must be zero and is not (R89). -/
theorem decodeAlu_refused_iff (fn : BitVec 2) (amt : BitVec 4) :
    (∃ e, decodeAlu (aluWord fn amt) = .error e) ↔ fn ≠ 2#2 ∧ amt ≠ 0#4 := by
  rcases fn_cases fn with rfl | rfl | rfl | rfl
  · simp [refused_iff fun _ => decodeAlu_add16]
  · simp [refused_iff fun _ => decodeAlu_sub16]
  · simp [decodeAlu_rol16.mpr rfl]
  · simp [refused_iff fun _ => decodeAlu_xor16]

/-- Settles O3: a word is refused exactly when it fails the check of its row. -/
theorem reservedWordsRefused : Obligations.ReservedWordsRefused :=
  ⟨decodeUop_refused_iff, decodeAlu_refused_iff⟩

end Sys2Proof

namespace Sys2Proof.Machine

/-! ### Reserved words have no meaning -/

/-- Outside its ranges a micro-operation has a field that its meaning refuses. -/
theorem exec_not_wellFormed {i : Instr} (s : State) (hf : i.format = .uop) (hw : i.wellFormed = false) :
    ∃ e, exec i s = .refused (.reserved e) := by
  cases i
  case kst g => exact ⟨_, if_neg (Bool.eq_false_iff.mp hw)⟩
  case kperm c => exact ⟨_, if_neg (Bool.eq_false_iff.mp hw)⟩
  case ark g r b =>
    simp only [exec, execArk]
    split
    next hg =>
      have hr : roundOk r = false := by simpa [Instr.wellFormed, hg] using hw
      exact ⟨_, if_neg (Bool.eq_false_iff.mp hr)⟩
    next => exact ⟨_, rfl⟩
  case endCmd | a | ainv | l2 | l2inv => cases hw
  all_goals cases hf

/-- Settles O4: the step refuses what the decoder refuses, and the meanings check the same ranges. -/
theorem reservedWordsHaveNoMeaning : Obligations.ReservedWordsHaveNoMeaning := by
  refine ⟨fun s w e hf hd => ?_, fun s i => exec_not_wellFormed s⟩
  simp only [step, hf, hd]

/-! ### The range of the micro-programs -/

theorem programInstr_eq_some {op : Op} {n : Nat} {i : Instr} :
    programInstr op n = some i ↔ ∃ w, uprog op n = some w ∧ decode (.uop w) = .ok i := by
  unfold programInstr
  cases uprog op n with
  | none => simp
  | some w => cases hd : decode (.uop w) <;> simp [hd]

/-- A micro-program has a word exactly in its range (R91). -/
theorem uprog_isSome_iff {op : Op} {n : Nat} : (uprog op n).isSome = true ↔ op ≠ .idle ∧ n ≤ lastUpc op := by
  constructor
  · intro h
    by_contra hout
    rw [not_and_or, not_not, not_le] at hout
    simp [uprog_outside hout] at h
  · rintro ⟨ho, hn⟩
    obtain ⟨i, hi, -⟩ := programInstr_legal ho hn
    obtain ⟨w, hw, -⟩ := programInstr_eq_some.mp hi
    simp [hw]

/-- Settles O5: a word there is stands in the range, where `programInstr` says what it decodes to. -/
theorem microProgramsAreTotalAndLegal : Obligations.MicroProgramsAreTotalAndLegal := by
  refine fun op n => ⟨uprog_isSome_iff, fun w hw => ?_⟩
  obtain ⟨ho, hn⟩ := uprog_isSome_iff.mp (Option.isSome_of_eq_some hw)
  obtain ⟨i, hi, hlegal⟩ := programInstr_legal ho hn
  obtain ⟨v, hv, hd⟩ := programInstr_eq_some.mp hi
  obtain rfl : w = v := Option.some.inj (hw.symm.trans hv)
  exact ⟨i, hd, hlegal⟩

/-! ### The words of the loop nests -/

/-- The word a micro-program holds for an operation is the encoder's. -/
theorem uprog_eq_encode {op : Op} {n : Nat} {i : Instr} (h : programInstr op n = some i) :
    (uprog op n).map .uop = some (encode i) := by
  obtain ⟨w, hw, hd⟩ := programInstr_eq_some.mp h
  rw [hw, (encode_of_decode hd).2, Option.map_some]

/-- `0x300 | (g << 3) | (r << 1) | b` puts the four fields of ARK side by side (R93). -/
theorem uop_arkWordNat {g r : Nat} (hg : g ≤ 16) (hr : r ≤ 2) (b : Branch) :
    OpWord.uop (BitVec.ofNat 12 (arkWordNat g r b.index)) = encode (.ark g r b) := by
  interval_cases g <;> interval_cases r <;> cases b <;> rfl

theorem uop_aWordNat (b : Branch) : OpWord.uop (BitVec.ofNat 12 (0x400 ||| b.index)) = encode (.a b) := by
  cases b <;> rfl

theorem uop_ainvWordNat (b : Branch) : OpWord.uop (BitVec.ofNat 12 (0x500 ||| b.index)) = encode (.ainv b) := by
  cases b <;> rfl

/-- Branch, round and half of a round, found back from a place of a step by division (R93, R94). -/
theorem place_coordinates {r u : Nat} (b : Nat) (hr : r ≤ 2) (hu : u ≤ 1) :
    (6 * b + (2 * r + u)) / 6 = b ∧ (6 * b + (2 * r + u)) % 6 = 2 * r + u ∧
      (2 * r + u) / 2 = r ∧ (2 * r + u) % 2 = u := by
  omega

/-- Place `6 * b + 2 * r + u` of step `s` of ENC, found back from `UPC` by division (R93). -/
theorem uprogEnc_place {s b r u : Nat} (hs : s ≤ 7) (hb : b ≤ 1) (hr : r ≤ 2) (hu : u ≤ 1) :
    uprogEnc (13 * s + 6 * b + 2 * r + u) =
      if u = 0 then some (arkWordNat (roundGroup s b) r b) else some (0x400 ||| b) := by
  have hstep : (13 * s + 6 * b + 2 * r + u) / 13 = s := by omega
  have hplace : (13 * s + 6 * b + 2 * r + u) % 13 = 6 * b + (2 * r + u) := by omega
  obtain ⟨hbranch, hhalf, hround, hpar⟩ := place_coordinates b hr hu
  simp only [uprogEnc, hstep, hplace, hbranch, hhalf, hround, hpar]
  rw [if_pos (by omega), if_neg (by omega)]

theorem uprogEnc_l2 {s : Nat} (hs : s ≤ 7) : uprogEnc (13 * s + 12) = some 0x600 := by
  have hplace : (13 * s + 12) % 13 = 12 := by omega
  simp only [uprogEnc, hplace, if_true]
  rw [if_pos (by omega)]

/-- Place `6 * b + 2 * q + u` after the L2INV of step `7 - v` of DEC, found back from `UPC` by division (R94). -/
theorem uprogDec_place {v b q u : Nat} (hv : v ≤ 7) (hb : b ≤ 1) (hq : q ≤ 2) (hu : u ≤ 1) :
    uprogDec (3 + 13 * v + 6 * b + 2 * q + u) =
      if u = 0 then some (0x500 ||| b) else some (arkWordNat (roundGroup (7 - v) b) (2 - q) b) := by
  have hafter : 3 + 13 * v + 6 * b + 2 * q + u - 2 = 13 * v + (6 * b + (2 * q + u) + 1) := by omega
  have hstep : (13 * v + (6 * b + (2 * q + u) + 1)) / 13 = v := by omega
  have hplace : (13 * v + (6 * b + (2 * q + u) + 1)) % 13 = 6 * b + (2 * q + u) + 1 := by omega
  obtain ⟨hbranch, hhalf, hround, hpar⟩ := place_coordinates b hq hu
  simp only [uprogDec, hafter, hstep, hplace, Nat.add_sub_cancel, hbranch, hhalf, hround, hpar]
  rw [if_neg (by omega), if_neg (by omega), if_pos (by omega), if_neg (by omega)]

theorem uprogDec_l2inv {v : Nat} (hv : v ≤ 7) : uprogDec (2 + 13 * v) = some 0x700 := by
  have hplace : (2 + 13 * v - 2) % 13 = 0 := by omega
  simp only [uprogDec, hplace, if_true]
  rw [if_neg (by omega), if_neg (by omega), if_pos (by omega)]

/-- The loop nest of KEYEXP: group by group, a KST and a KPERM (R92). -/
theorem uprog_keyexp_nest {c : Nat} (hc : c ≤ 16) :
    (uprog .keyexp (2 * c)).map .uop = some (encode (.kst c)) ∧
    (uprog .keyexp (2 * c + 1)).map .uop = some (encode (.kperm (c + 1))) :=
  ⟨uprog_eq_encode (programInstr_keyexp_even hc), uprog_eq_encode (programInstr_keyexp_odd hc)⟩

/-- The loop nest of ENC: step by step, the rounds of both branches (R93). -/
theorem uprog_enc_nest {s r : Nat} (hs : s ≤ 7) (hr : r ≤ 2) (b : Branch) :
    (uprog .enc (13 * s + 6 * b.index + 2 * r)).map .uop = some (encode (.ark (2 * s + b.index) r b)) ∧
    (uprog .enc (13 * s + 6 * b.index + 2 * r + 1)).map .uop = some (encode (.a b)) := by
  have hb := b.index_le_one
  have hg : roundGroup s b.index ≤ 16 := by simp only [roundGroup, Config.nBranches]; omega
  constructor
  · have hw : uprogEnc (13 * s + 6 * b.index + 2 * r) = some (arkWordNat (roundGroup s b.index) r b.index) :=
      uprogEnc_place (u := 0) hs hb hr (by decide)
    rw [uprog, hw]
    exact congrArg some (uop_arkWordNat hg hr b)
  · have hw : uprogEnc (13 * s + 6 * b.index + 2 * r + 1) = some (0x400 ||| b.index) :=
      uprogEnc_place (u := 1) hs hb hr (by decide)
    rw [uprog, hw]
    exact congrArg some (uop_aWordNat b)

/-- The loop nest of DEC: the steps and their rounds downwards, the branches upwards (R94). -/
theorem uprog_dec_nest {v q : Nat} (hv : v ≤ 7) (hq : q ≤ 2) (b : Branch) :
    (uprog .dec (3 + 13 * v + 6 * b.index + 2 * q)).map .uop = some (encode (.ainv b)) ∧
    (uprog .dec (3 + 13 * v + 6 * b.index + 2 * q + 1)).map .uop =
      some (encode (.ark (2 * (7 - v) + b.index) (2 - q) b)) := by
  have hb := b.index_le_one
  have hg : roundGroup (7 - v) b.index ≤ 16 := by simp only [roundGroup, Config.nBranches]; omega
  constructor
  · have hw : uprogDec (3 + 13 * v + 6 * b.index + 2 * q) = some (0x500 ||| b.index) :=
      uprogDec_place (u := 0) hv hb hq (by decide)
    rw [uprog, hw]
    exact congrArg some (uop_ainvWordNat b)
  · have hw : uprogDec (3 + 13 * v + 6 * b.index + 2 * q + 1) =
        some (arkWordNat (roundGroup (7 - v) b.index) (2 - q) b.index) :=
      uprogDec_place (u := 1) hv hb hq (by decide)
    rw [uprog, hw]
    exact congrArg some (uop_arkWordNat hg (by omega) b)

/-- Settles O6: the places of the loop nests, with the layers between the steps, the whitening and END. -/
theorem microProgramsAreTheLoopNests : Obligations.MicroProgramsAreTheLoopNests := by
  refine ⟨fun _ => uprog_keyexp_nest, rfl, fun s hs => ⟨fun b r hr => uprog_enc_nest hs hr b, ?_⟩,
    rfl, rfl, rfl, rfl, rfl, fun v hv => ⟨?_, fun b q hq => uprog_dec_nest hv hq b⟩, rfl⟩
  · rw [uprog, uprogEnc_l2 hs]
    rfl
  · rw [uprog, uprogDec_l2inv hv]
    rfl

end Sys2Proof.Machine
end

section
/-! PROOF. The family 40_word_alu.md: the four ALU functions as operations, with what their results hold. -/

namespace Sys2Proof

/-- `0x20 | n` is the control value with function `10` and amount `n` (R88). -/
theorem aluWord_rol16 {n : Nat} (hn : n ≤ 15) : aluWord 0b10#2 (BitVec.ofNat 4 n) = BitVec.ofNat 6 (0x20 ||| n) := by
  have hor : 0x20 ||| n = 0x20 + n := (Nat.two_pow_add_eq_or_of_lt (i := 5) (by omega) 1).symm
  refine BitVec.eq_of_toNat_eq ?_
  rw [aluWord_toNat, hor, BitVec.toNat_ofNat, BitVec.toNat_ofNat, BitVec.toNat_ofNat]
  omega

end Sys2Proof

namespace Sys2Proof.Machine

/-! ### The bits of a result -/

/-- Bit `i` of the operand is bit `(i + n mod 16) mod 16` of the rotated word (R112). -/
theorem getLsbD_rol16 (a : Word) (n : Nat) {i : Nat} (hi : i < 16) :
    (rol16 a n).getLsbD ((i + n % 16) % 16) = a.getLsbD i := by
  have hto : (i + n % 16) % 16 < 16 := Nat.mod_lt _ (by decide)
  have hfrom : ((i + n % 16) % 16 + (16 - n % 16)) % 16 = i := by omega
  rw [BitVec.getLsbD_eq_getElem hto, getElem_rol16, ← BitVec.getLsbD_eq_getElem, hfrom]

theorem getLsbD_xor16 (a b : Word) (i : Nat) : (xor16 a b).getLsbD i = true ↔ a.getLsbD i ≠ b.getLsbD i := by
  rw [xor16, BitVec.getLsbD_xor, Bool.xor_iff_ne]

/-! ### The operations -/

theorem exec_add16 (s : State) : exec .add16 s = .next (s.setAluY (add16 s.alu.a s.alu.b)) := rfl

theorem exec_sub16 (s : State) : exec .sub16 s = .next (s.setAluY (sub16 s.alu.a s.alu.b)) := rfl

theorem exec_rol16 (n : Nat) (s : State) : exec (.rol16 n) s = .next (s.setAluY (rol16 s.alu.a n)) := rfl

theorem exec_xor16 (s : State) : exec .xor16 s = .next (s.setAluY (xor16 s.alu.a s.alu.b)) := rfl

/-- Driving the result net changes the result net and nothing else. -/
theorem State.setAluY_frame (s : State) (y : Word) :
    s.setAluY y = { s with alu := { s.alu with y := (s.setAluY y).alu.y } } := rfl

/-- Settles O21: the result is `sub16` of the operands, and `add16` and `sub16` undo each other. -/
theorem subWrapsAtSixteenBits : Obligations.SubWrapsAtSixteenBits :=
  ⟨rfl, fun s => ⟨_, exec_sub16 s, sub16_toNat s.alu.a s.alu.b, add16_sub16 s.alu.a s.alu.b,
    sub16_add16 s.alu.a s.alu.b, s.setAluY_frame _⟩⟩

/-- Settles O22: the result is the operand rotated, for every amount. -/
theorem rolMovesEveryBit : Obligations.RolMovesEveryBit :=
  ⟨fun _ hn => congrArg OpWord.alu (aluWord_rol16 hn), fun n s =>
    ⟨_, exec_rol16 n s, fun _ hi => getLsbD_rol16 s.alu.a n hi, s.setAluY_frame _⟩⟩

/-- Settles O23: the result is the operands' exclusive or, bit by bit. -/
theorem xorIsBitwise : Obligations.XorIsBitwise :=
  ⟨rfl, fun s => ⟨_, exec_xor16 s, fun i _ => getLsbD_xor16 s.alu.a s.alu.b i, s.setAluY_frame _⟩⟩

/-- Settles O20: the result is `add16` of the operands, in every state. -/
theorem addWrapsAtSixteenBits : Obligations.AddWrapsAtSixteenBits :=
  ⟨rfl, fun s => ⟨_, exec_add16 s, add16_toNat s.alu.a s.alu.b, s.setAluY_frame _⟩⟩

end Sys2Proof.Machine
end

section
/-! PROOF. The family 41_key_schedule.md: KST and KPERM as operations, the recurrence of the key schedule, and
the KEYEXP that runs them 17 times. -/

namespace Sys2Proof

/-- A micro-operation word with an operand in the `g` field and nothing in `r` and `b` (R83). -/
theorem uopWord_group (opc : BitVec 4) {g : Nat} (hg : g < 32) :
    uopWord opc (BitVec.ofNat 5 g) 0#2 0#1 = BitVec.ofNat 12 ((opc.toNat <<< 8) ||| (g <<< 3)) := by
  have hlow : g <<< 3 < 2 ^ 8 := by rw [Nat.shiftLeft_eq]; omega
  have hopc := opc.isLt
  refine BitVec.eq_of_toNat_eq ?_
  rw [uopWord_toNat, ← Nat.shiftLeft_add_eq_or_of_lt hlow]
  simp only [Nat.shiftLeft_eq, BitVec.toNat_ofNat]
  omega

end Sys2Proof

namespace Sys2Proof.Machine

/-! ### The two operations -/

theorem exec_kst_of_le {g : Nat} (hg : g ≤ 16) (s : State) :
    exec (.kst g) s = .next (s.storeGroup g s.k.storedWords).nextUop := by
  have hw : (Instr.kst g).wellFormed = true := decide_eq_true hg
  obtain ⟨t, ht⟩ := exec_wellFormed s hw
  rw [ht, exec_kst ht]

theorem exec_kperm_of_range {c : Nat} (h1 : 1 ≤ c) (h17 : c ≤ 17) (s : State) :
    exec (.kperm c) s = .next (s.setK (kpermFn s.k c)).nextUop := by
  have hw : (Instr.kperm c).wellFormed = true := by simp [Instr.wellFormed, counterOk, h1, h17]
  obtain ⟨t, ht⟩ := exec_wellFormed s hw
  rw [ht, exec_kperm ht]

/-- The pair-function in the library's operations (R130). -/
theorem aFn_eq (l r : Word) :
    aFn (l, r) = (l.rotateLeft 9 + r, r.rotateLeft 2 ^^^ (l.rotateLeft 9 + r)) := by
  simp only [aFn, rol16_eq_rotateLeft, add16, xor16, Config.rotAL, Config.rotAR]

/-- The six words of the group KST stores. -/
theorem State.rkWord_nextUop_storeGroup (s : State) (g j : Nat) (hj : j < 6) :
    (s.storeGroup g s.k.storedWords).nextUop.rkWord g j = s.k.storedWords[j]'hj :=
  (State.rkWord_congr rfl rfl g j).trans (s.rkWord_storeGroup_same g j s.k.storedWords hj)

/-- Settles O12: a write of the group's six consecutive words. -/
theorem kstStoresTheGroup : Obligations.KstStoresTheGroup := by
  refine fun g s hg => ⟨congrArg OpWord.uop (uopWord_group 0x1#4 (by omega)), _, exec_kst_of_le hg s, ?_⟩
  have hword := s.rkWord_nextUop_storeGroup g
  refine ⟨hword 0 (by decide), hword 1 (by decide), hword 2 (by decide), hword 3 (by decide),
    hword 4 (by decide), hword 5 (by decide), fun a ha => ?_, rfl⟩
  exact (State.tableWord_congr rfl rfl a).trans (s.tableWord_storeGroup_outside g a _ ha)

/-- Settles O13: the buffer becomes `kpermFn` of the old one, whose additions take the words of `aFn`. -/
theorem kpermPermutesTheBuffer : Obligations.KpermPermutesTheBuffer := by
  refine fun c s h1 h17 => ⟨congrArg OpWord.uop (uopWord_group 0x2#4 (by omega)), ?_⟩
  rw [exec_kperm_of_range h1 h17, kpermFn, aFn_eq]
  rfl

/-! ### The schedule -/

theorem keySchedule_succ (key : KeyBuf) (c j : Nat) :
    keySchedule key (c + 1) j = (kpermFn (keyBufAfter key c) (c + 1)).word j := rfl

/-- The words KST stores after `KPERM c`, by the words before it (R121). -/
theorem kpermFn_words (k : KeyBuf) (c : Nat) :
    (kpermFn k c).word 0 = k.word 6 ∧ (kpermFn k c).word 1 = k.word 7 + BitVec.ofNat 16 c ∧
    ((kpermFn k c).word 2, (kpermFn k c).word 3) = aFn (k.word 0, k.word 1) ∧
    (kpermFn k c).word 4 = k.word 2 + (kpermFn k c).word 2 ∧
    (kpermFn k c).word 5 = k.word 3 + (kpermFn k c).word 3 :=
  ⟨rfl, rfl, rfl, rfl, rfl⟩

/-- Settles O33: the next group is stored from the buffer permuted once more. -/
theorem keyScheduleRecurrence : Obligations.KeyScheduleRecurrence := by
  intro key c _
  simp only [keySchedule_succ]
  obtain ⟨h0, h1, h23, h4, h5⟩ := kpermFn_words (keyBufAfter key c) (c + 1)
  exact ⟨h0, h1, h23, h4, h5, fun _ _ => rfl⟩

/-- KST of the buffer after `c` permutations takes a table that holds the groups below `c` of the schedule to
one that holds the groups below `c + 1` (R124). -/
theorem State.storeGroup_extends_schedule {s : State} {key : KeyBuf} {c : Nat}
    (h : ∀ g < c, ∀ j ≤ 5, s.rkWord g j = keySchedule key g j) :
    ∀ g < c + 1, ∀ j ≤ 5,
      (s.storeGroup c (keyBufAfter key c).storedWords).rkWord g j = keySchedule key g j := by
  intro g hg j hj
  have hlen : j < (keyBufAfter key c).storedWords.length := Nat.lt_succ_of_le hj
  by_cases hgc : g = c
  · subst hgc
    rw [s.rkWord_storeGroup_same g j _ hlen, storedWords_keyBufAfter key g hlen]
  · rw [s.rkWord_storeGroup_other _ hgc hj rfl]
    exact h g (by omega) j hj

/-! ### The run of a KEYEXP -/

theorem State.NoResetFor.drop {s t : State} {m n : Nat} (h : s.NoResetFor (m + n))
    (ht : t.host = s.host.drop m) : t.NoResetFor n := by
  intro p hp
  rw [ht, List.take_drop] at hp
  exact h p (List.mem_of_mem_drop hp)

theorem State.NoResetFor.mono {s : State} {m n : Nat} (h : s.NoResetFor n) (hmn : m ≤ n) : s.NoResetFor m :=
  fun p hp => h p (List.take_subset_take_left s.host hmn hp)

/-- The edge at which a ready CORE accepts a KEYEXP (R174). -/
theorem step_acceptKeyexp {s : State} (hr : s.ports.rst = false) (hd : s.direct = none) (ho : s.op = .idle)
    (hv : s.ports.cmdValid = true) (hc : s.ports.cmdOp = 0b01#2) :
    step s = .next s.acceptKeyexp.pastEdge := by
  refine step_of_exec (w := .cmd 0b01#2) (i := .keyexp) ?_ rfl ?_
  · rw [State.fetch_of_ready hr hd ho, if_pos hv, hc]
  · simp only [exec, execKeyexp, State.onAcceptance, if_pos ho]

/-- The edge at which a command ends (R153). -/
theorem step_endCmd {s : State} (hr : s.ports.rst = false) (hd : s.direct = none) (ho : s.op ≠ .idle)
    (hu : s.upc.toNat = lastUpc s.op) : step s = .next s.endCommand.pastEdge := by
  obtain ⟨i, hi, -, -, hend⟩ := programInstr_legal ho (Nat.le_of_eq hu)
  obtain rfl := hend.mpr hu
  exact step_of_program hr hd ho hi rfl

/-- The first `2c` micro-operations of a KEYEXP: the groups below `c` are stored, and the buffer has been
permuted `c` times (R92, R124). -/
theorem stepN_keyGroups {s : State} (hd : s.direct = none) (ho : s.op = .keyexp) (hu : s.upc = 0) {c : Nat}
    (hc : c ≤ 17) (hr : s.NoResetFor (2 * c)) :
    ∃ t, stepN (2 * c) s = .next t ∧
      t = { s with
        rk := t.rk
        k := keyBufAfter s.k c
        upc := BitVec.ofNat 7 (2 * c)
        host := s.host.drop (2 * c) } ∧
      ∀ g < c, ∀ j ≤ 5, t.rkWord g j = keySchedule s.k g j := by
  induction c with
  | zero =>
    refine ⟨s, rfl, ?_, fun g hg => absurd hg (Nat.not_lt_zero g)⟩
    rw [show BitVec.ofNat 7 (2 * 0) = s.upc from hu.symm]
    rfl
  | succ c ih =>
    obtain ⟨t, hrun, ht, hwords⟩ := ih (by omega) (hr.mono (by omega))
    have hk : t.k = keyBufAfter s.k c := by rw [ht]
    have hupc : t.upc = BitVec.ofNat 7 (2 * c) := by rw [ht]
    have hhost : t.host = s.host.drop (2 * c) := by rw [ht]
    have hgroup := stepN_keyGroup (s := t) (c := c) (by rw [ht]; exact hd) (by rw [ht]; exact ho) (by omega)
      (by rw [hupc, BitVec.toNat_ofNat]; omega) (hr.drop hhost)
    refine ⟨_, (stepN_add hrun 2).trans hgroup, ?_, ?_⟩
    · have hnext : t.upc + 2 = BitVec.ofNat 7 (2 * (c + 1)) := by
        rw [hupc, show 2 * (c + 1) = 2 * c + 2 from rfl, BitVec.ofNat_add]
        rfl
      rw [hnext, hk, hhost, List.drop_drop, ht]
      rfl
    · rw [hk]
      exact State.storeGroup_extends_schedule hwords

/-- Settles O35: the acceptance, 17 iterations of the loop of KST and KPERM, and END. -/
theorem keyexpBuildsTheSchedule : Obligations.KeyexpBuildsTheSchedule := by
  intro s ho hd hv hc hr
  have haccept := step_acceptKeyexp (State.noReset_now hr) hd ho hv hc
  have hr' : s.acceptKeyexp.pastEdge.NoResetFor 35 := State.noReset_tail hr rfl
  obtain ⟨t, hrun, ht, hwords⟩ :=
    stepN_keyGroups (s := s.acceptKeyexp.pastEdge) rfl rfl rfl (c := 17) le_rfl (hr'.mono (by decide))
  have hop : t.op = .keyexp := by rw [ht]; rfl
  have hhost : t.host = s.acceptKeyexp.pastEdge.host.drop 34 := by rw [ht]
  have hupc : t.upc = 34#7 := by rw [ht]
  have hend : step t = .next t.endCommand.pastEdge :=
    step_endCmd (State.noReset_now (hr'.drop (m := 34) (n := 1) hhost)) (by rw [ht]; rfl)
      (by rw [hop]; decide) (by rw [hupc, hop]; rfl)
  refine ⟨t.endCommand.pastEdge, ?_, ?_, ?_⟩
  · rw [stepN_succ haccept 35, stepN_add hrun 1, stepN_succ hend 0, stepN]
  · intro g j hg hj
    exact (State.rkWord_congr rfl rfl g j).trans (hwords g (by omega) j hj)
  · have hdrop : (s.host.tail.drop 34).tail = s.host.drop 36 := by
      rw [← List.drop_one, ← List.drop_one, List.drop_drop, List.drop_drop]
    rw [ht]
    simp only [State.endCommand, State.pastEdge, State.acceptKeyexp, State.startCommand, hdrop, ho, hd]
    rfl

end Sys2Proof.Machine
end

section
/-! PROOF. The family 42_arx_pair.md: the pair-function and its inverse, and A and AINV as operations on a
branch. -/

namespace Sys2Proof.Machine

/-! ### The functions of a pair -/

/-- The inverse pair-function in the library's operations (R131). -/
theorem ainvFn_eq (l r : Word) :
    ainvFn (l, r) = ((l - (r ^^^ l).rotateRight 2).rotateRight 9, (r ^^^ l).rotateRight 2) := by
  simp only [ainvFn, ror16_eq_rotateRight, sub16, xor16, Config.rotAL, Config.rotAR]

/-- `AINV_fn` undoes `A_fn`: each of its operations meets the one of `A_fn` that it inverts (R132). -/
theorem ainvFn_leftInverse : Function.LeftInverse ainvFn aFn := fun p => by
  simp only [ainvFn, aFn, xor16_xor16, ror16_rol16, sub16_add16]

/-- `A_fn` undoes `AINV_fn` (R132, the spec's own inference). -/
theorem ainvFn_rightInverse : Function.RightInverse ainvFn aFn := fun p => by
  simp only [ainvFn, aFn, rol16_ror16, add16_sub16, xor16_xor16]

/-! ### The operations on a branch -/

theorem exec_a (b : Branch) (s : State) : exec (.a b) s = .next (s.setX (s.x.onBranch b aFn)).nextUop := rfl

theorem exec_ainv (b : Branch) (s : State) :
    exec (.ainv b) s = .next (s.setX (s.x.onBranch b ainvFn)).nextUop := rfl

theorem Block.onBranch_zero (x : Block) (f : Word × Word → Word × Word) :
    x.onBranch .zero f = { x with x0 := (f (x.x0, x.x1)).1, x1 := (f (x.x0, x.x1)).2 } := rfl

theorem Block.onBranch_one (x : Block) (f : Word × Word → Word × Word) :
    x.onBranch .one f = { x with x2 := (f (x.x2, x.x3)).1, x3 := (f (x.x2, x.x3)).2 } := rfl

theorem Block.onBranch_leftInverse {f g : Word × Word → Word × Word} (h : Function.LeftInverse g f) (x : Block)
    (b : Branch) : (x.onBranch b f).onBranch b g = x := by
  simp only [Block.onBranch, Block.branch_setBranch_same, Block.setBranch_setBranch_same, h (x.branch b),
    Block.setBranch_branch]

/-- Settles O15: the branch takes `aFn` of its pair, written in the library's operations. -/
theorem arxPairForward : Obligations.ArxPairForward := by
  refine ⟨rfl, rfl, fun s => ⟨?_, ?_⟩⟩
  · rw [exec_a, Block.onBranch_zero, aFn_eq]; rfl
  · rw [exec_a, Block.onBranch_one, aFn_eq]; rfl

/-- Settles O16: the branch takes `ainvFn` of its pair, written in the library's operations. -/
theorem arxPairInverse : Obligations.ArxPairInverse := by
  refine ⟨rfl, rfl, fun s => ⟨?_, ?_⟩⟩
  · rw [exec_ainv, Block.onBranch_zero, ainvFn_eq]; rfl
  · rw [exec_ainv, Block.onBranch_one, ainvFn_eq]; rfl

/-! ### One operation after the other -/

/-- Two block micro-operations, one after the other, write `X` twice, advance `UPC` by 2, and change nothing
else. -/
theorem execThen_of_blockEffect {s : State} {i j : Instr} {y z : Block}
    (hi : blockEffect s.rkWord s.x i = some y) (hj : blockEffect s.rkWord y j = some z) :
    execThen i j s = .next { s with x := z, upc := s.upc + 2 } := by
  have hupc : s.upc + 1 + 1 = s.upc + 2 := BitVec.add_assoc s.upc 1 1
  simp only [execThen, exec_of_blockEffect hi, ← hupc]
  exact exec_of_blockEffect (s := (s.setX y).nextUop) hj

/-- Settles O30: the functions undo each other, hence so do the operations that apply them to one branch. -/
theorem arxPairMutualInverses : Obligations.ArxPairMutualInverses :=
  ⟨fun p => ⟨ainvFn_leftInverse p, ainvFn_rightInverse p⟩, fun b s =>
    ⟨execThen_of_blockEffect rfl (congrArg some (s.x.onBranch_leftInverse ainvFn_leftInverse b)),
      execThen_of_blockEffect rfl (congrArg some (s.x.onBranch_leftInverse ainvFn_rightInverse b))⟩⟩

end Sys2Proof.Machine
end

section
/-! PROOF. The family 43_linear_layer.md: the mixing layer and its inverse, and L2 and L2INV as operations on
the block state. -/

namespace Sys2Proof.Machine

/-! ### The functions of a block -/

/-- The layer's `tmp` in the library's operations (R140, R141). -/
theorem l2Tmp_eq (a b : Word) : l2Tmp a b = (a ^^^ b).rotateLeft 8 := by
  simp only [l2Tmp, rol16_eq_rotateLeft, xor16, Config.rotL2]

/-- A word mixed twice with the same two words is the word again. -/
theorem xor16_mix_mix (a b t : Word) : xor16 (xor16 (xor16 (xor16 a b) t) b) t = a := by
  have hswap : xor16 (xor16 (xor16 a b) t) b = xor16 (xor16 (xor16 a b) b) t := by
    rw [xor16_assoc _ t b, xor16_comm t b, ← xor16_assoc]
  rw [hswap, xor16_xor16, xor16_xor16]

/-- `L2INV_fn` undoes `L2_fn`: the swapped half is the one `tmp` was taken from, so the other half is mixed a
second time with the same words (R142). -/
theorem l2invFn_leftInverse : Function.LeftInverse l2invFn l2Fn := fun x => by
  simp only [l2invFn, l2Fn, xor16_mix_mix]

/-- `L2_fn` undoes `L2INV_fn` (R142, the spec's own inference). -/
theorem l2invFn_rightInverse : Function.RightInverse l2invFn l2Fn := fun x => by
  simp only [l2invFn, l2Fn, xor16_mix_mix]

/-! ### The operations on the block state -/

theorem exec_l2 (s : State) : exec .l2 s = .next (s.setX (l2Fn s.x)).nextUop := rfl

theorem exec_l2inv (s : State) : exec .l2inv s = .next (s.setX (l2invFn s.x)).nextUop := rfl

/-- Settles O17: `X` takes `l2Fn` of its words, with `tmp` written in the library's operations. -/
theorem linearLayerForward : Obligations.LinearLayerForward := by
  refine ⟨rfl, fun s => ?_⟩
  rw [exec_l2, l2Fn, l2Tmp_eq]
  rfl

/-- Settles O18: `X` takes `l2invFn` of its words, with `tmp` written in the library's operations. -/
theorem linearLayerInverse : Obligations.LinearLayerInverse := by
  refine ⟨rfl, fun s => ?_⟩
  rw [exec_l2inv, l2invFn, l2Tmp_eq]
  rfl

/-- Settles O31: the functions undo each other, hence so do the operations that apply them to `X`. -/
theorem linearLayerMutualInverses : Obligations.LinearLayerMutualInverses :=
  ⟨fun x => ⟨l2invFn_leftInverse x, l2invFn_rightInverse x⟩, fun s =>
    ⟨execThen_of_blockEffect rfl (congrArg some (l2invFn_leftInverse s.x)),
      execThen_of_blockEffect rfl (congrArg some (l2invFn_rightInverse s.x))⟩⟩

end Sys2Proof.Machine
end

section
/-! PROOF. The family 44_permutation_engine.md: ARK and END as operations, the rounds and steps of a block
command and what undoes them, and the step of a CORE that executes a command. -/

namespace Sys2Proof.Machine

/-! ### Operations on one branch -/

/-- The key XOR of ARK as a function of a pair (R150). -/
def xorPair (key p : Word × Word) : Word × Word := (xor16 p.1 key.1, xor16 p.2 key.2)

theorem xorPair_involutive (key : Word × Word) : Function.Involutive (xorPair key) := fun p => by
  simp only [xorPair, xor16_xor16]

theorem xorPair_comm (key key' p : Word × Word) : xorPair key (xorPair key' p) = xorPair key' (xorPair key p) := by
  simp only [xorPair, xor16_assoc, xor16_comm key.1, xor16_comm key.2]

theorem Block.xorBranch_eq_onBranch (x : Block) (b : Branch) (key : Word × Word) :
    x.xorBranch b key = x.onBranch b (xorPair key) := rfl

theorem Block.onBranch_onBranch_same (x : Block) (b : Branch) (f g : Word × Word → Word × Word) :
    (x.onBranch b f).onBranch b g = x.onBranch b (g ∘ f) := by
  simp only [Block.onBranch, Block.branch_setBranch_same, Block.setBranch_setBranch_same, Function.comp_apply]

/-- Functions of different branches commute (R133, R157). -/
theorem Block.onBranch_comm (x : Block) {b c : Branch} (h : c ≠ b) (f g : Word × Word → Word × Word) :
    (x.onBranch b f).onBranch c g = (x.onBranch c g).onBranch b f := by
  simp only [Block.onBranch, Block.branch_setBranch_other x h, Block.branch_setBranch_other x h.symm,
    Block.setBranch_comm x h]

@[simp] theorem Block.xorBranch_xorBranch (x : Block) (b : Branch) (key : Word × Word) :
    (x.xorBranch b key).xorBranch b key = x :=
  x.onBranch_leftInverse (xorPair_involutive key).leftInverse b

theorem Block.xorBranch_comm (x : Block) (b : Branch) (key key' : Word × Word) :
    (x.xorBranch b key).xorBranch b key' = (x.xorBranch b key').xorBranch b key := by
  simp only [Block.xorBranch_eq_onBranch, Block.onBranch_onBranch_same]
  exact congrArg (x.onBranch b) (funext (xorPair_comm key' key))

/-! ### ARK -/

theorem wellFormed_ark {g r : Nat} (hg : g ≤ 16) (hr : r ≤ 2) (b : Branch) :
    (Instr.ark g r b).wellFormed = true := by
  simp only [Instr.wellFormed, groupOk, roundOk, hg, hr, decide_true, Bool.and_self]

theorem blockEffect_ark (rk : KeyTable) (x : Block) {g r : Nat} {b : Branch}
    (hw : (Instr.ark g r b).wellFormed = true) :
    blockEffect rk x (.ark g r b) = some (x.xorBranch b (keyPair rk g r)) :=
  if_pos hw

theorem exec_ark {g r : Nat} (hg : g ≤ 16) (hr : r ≤ 2) (b : Branch) (s : State) :
    exec (.ark g r b) s = .next (s.setX (s.x.xorBranch b (s.roundKey g r))).nextUop :=
  exec_of_blockEffect (blockEffect_ark s.rkWord s.x (wellFormed_ark hg hr b))

/-- Settles O14: the XOR of the branch with the two words of the round, and the fields of the word side by side. -/
theorem arkXorsTheRoundKey : Obligations.ArkXorsTheRoundKey := by
  refine fun g r s hg hr => ⟨?_, (uop_arkWordNat hg hr .one).symm, exec_ark hg hr .zero s, exec_ark hg hr .one s⟩
  exact (uop_arkWordNat hg hr .zero).symm.trans (by rw [arkWordNat, Branch.index, Nat.or_zero])

/-! ### Two branch operations, one after the other -/

/-- A branch operation applies a function of a pair to its branch, chosen by the table alone (R157). -/
theorem blockEffect_of_branchOf {i : Instr} {b : Branch} (h : branchOf i = some b) (hw : i.wellFormed = true)
    (rk : KeyTable) : ∃ f, ∀ x, blockEffect rk x i = some (x.onBranch b f) := by
  cases i
  case ark g r c =>
    obtain rfl : c = b := Option.some.inj h
    exact ⟨xorPair (keyPair rk g r), fun x => blockEffect_ark rk x hw⟩
  case a c =>
    obtain rfl : c = b := Option.some.inj h
    exact ⟨aFn, fun _ => rfl⟩
  case ainv c =>
    obtain rfl : c = b := Option.some.inj h
    exact ⟨ainvFn, fun _ => rfl⟩
  all_goals cases h

/-- Settles O32: functions of different branches commute, and the XORs of two ARK commute and cancel. -/
theorem branchesAreIndependent : Obligations.BranchesAreIndependent := by
  refine ⟨fun s i j b c hi hj hbc hwi hwj => ?_, fun s g r g' r' b hg hr hg' hr' => ?_⟩
  · obtain ⟨f, hf⟩ := blockEffect_of_branchOf hi hwi s.rkWord
    obtain ⟨f', hf'⟩ := blockEffect_of_branchOf hj hwj s.rkWord
    rw [execThen_of_blockEffect (hf _) (hf' _), execThen_of_blockEffect (hf' _) (hf _),
      Block.onBranch_comm s.x hbc.symm]
  · have hark x := blockEffect_ark s.rkWord x (wellFormed_ark hg hr b)
    have hark' x := blockEffect_ark s.rkWord x (wellFormed_ark hg' hr' b)
    constructor
    · rw [execThen_of_blockEffect (hark _) (hark' _), execThen_of_blockEffect (hark' _) (hark _),
        Block.xorBranch_comm]
    · rw [execThen_of_blockEffect (hark _) (hark _), Block.xorBranch_xorBranch]

/-! ### END -/

/-- Settles O19: END is its own effect, and every other micro-operation answers within its frame. -/
theorem endWritesTheResponse : Obligations.EndWritesTheResponse := by
  refine ⟨rfl, ⟨rfl, rfl, rfl⟩, fun s => ⟨s.endCommand, rfl, fun ho => ?_, fun hb => ?_, rfl, rfl⟩,
    fun s i hf hw hi => ?_⟩
  · have hb : ¬(s.op = .enc ∨ s.op = .dec) := fun hb => Op.ne_keyexp_of_block hb ho
    simp only [State.endCommand, if_pos ho, if_neg hb]
    rfl
  · simp only [State.endCommand, if_neg (Op.ne_keyexp_of_block hb), if_pos hb]
    rfl
  · obtain ⟨t, ht⟩ := exec_wellFormed s hw
    have hframe := exec_uop_frame hf hi ht
    exact ⟨t, ht, by rw [hframe], by rw [hframe]⟩

/-! ### Decryption and encryption undo each other -/

/-- A loop is undone by the loop over the indices backwards that undoes each iteration. -/
theorem foldl_reverse_undo {α β : Type} {f g : α → β → α}
    (h : ∀ i, Function.LeftInverse (g · i) (f · i)) (is : List β) (x : α) :
    is.reverse.foldl g (is.foldl f x) = x := by
  induction is generalizing x with
  | nil => rfl
  | cons i is ih => rw [List.foldl_cons, List.reverse_cons, List.foldl_append, ih]; exact h i x

/-- Loops whose iterations commute, commute. -/
theorem foldl_foldl_comm {α β γ : Type} {f : α → β → α} {g : α → γ → α}
    (h : ∀ x i j, g (f x i) j = f (g x j) i) (is : List β) (js : List γ) (x : α) :
    js.foldl g (is.foldl f x) = is.foldl f (js.foldl g x) := by
  induction is generalizing x with
  | nil => rfl
  | cons i is ih =>
    have hi : js.foldl g (f x i) = f (js.foldl g x) i := List.foldl_hom (f · i) fun y j => h y i j
    rw [List.foldl_cons, List.foldl_cons, ih, hi]

section Rounds

variable (rk : KeyTable) (s : Nat)

theorem encRound_eq_onBranch (b : Branch) (x : Block) (r : Nat) :
    encRound rk s b x r = x.onBranch b (aFn ∘ xorPair (keyPair rk (2 * s + b.index) r)) :=
  x.onBranch_onBranch_same b (xorPair (keyPair rk (2 * s + b.index) r)) aFn

theorem decRound_eq_onBranch (b : Branch) (x : Block) (r : Nat) :
    decRound rk s b x r = x.onBranch b (xorPair (keyPair rk (2 * s + b.index) r) ∘ ainvFn) :=
  x.onBranch_onBranch_same b ainvFn (xorPair (keyPair rk (2 * s + b.index) r))

theorem decRound_leftInverse (b : Branch) (r : Nat) :
    Function.LeftInverse (decRound rk s b · r) (encRound rk s b · r) := fun x => by
  simp only [decRound, encRound, Block.onBranch_leftInverse ainvFn_leftInverse, Block.xorBranch_xorBranch]

theorem decRound_rightInverse (b : Branch) (r : Nat) :
    Function.RightInverse (decRound rk s b · r) (encRound rk s b · r) := fun x => by
  simp only [decRound, encRound, Block.onBranch_leftInverse ainvFn_rightInverse, Block.xorBranch_xorBranch]

/-- Rounds of different branches commute, whichever way they go. -/
theorem decRound_encRound_comm {b c : Branch} (h : c ≠ b) (x : Block) (q r : Nat) :
    decRound rk s c (encRound rk s b x q) r = encRound rk s b (decRound rk s c x r) q := by
  simp only [encRound_eq_onBranch, decRound_eq_onBranch]
  exact x.onBranch_comm h _ _

/-- Step `s` of decryption undoes step `s` of encryption: branch 0 is undone first, through the rounds of
branch 1. -/
theorem decStep_leftInverse : Function.LeftInverse (decStep rk · s) (encStep rk · s) := fun x => by
  have hcomm := foldl_foldl_comm (decRound_encRound_comm rk s (b := .one) (c := .zero) (by decide))
    [0, 1, 2] [2, 1, 0]
  have hundo b := foldl_reverse_undo (decRound_leftInverse rk s b) [0, 1, 2]
  simp only [decStep, encStep, l2invFn_leftInverse _, hcomm]
  exact (hundo .one _).trans (hundo .zero x)

/-- Step `s` of encryption undoes step `s` of decryption: branch 0 is done again, through the rounds of branch 1
undone. -/
theorem decStep_rightInverse : Function.RightInverse (decStep rk · s) (encStep rk · s) := fun x => by
  have hcomm := foldl_foldl_comm (decRound_encRound_comm rk s (b := .zero) (c := .one) (by decide))
    [0, 1, 2] [2, 1, 0]
  have hredo b := foldl_reverse_undo (decRound_rightInverse rk s b) [2, 1, 0]
  simp only [decStep, encStep, ← hcomm]
  exact (congrArg l2Fn ((hredo .one _).trans (hredo .zero _))).trans (l2invFn_rightInverse x)

/-- The whitening undoes itself (R151). -/
theorem whiten_involutive : Function.Involutive (whiten rk) := fun x => by
  have hcomm (y : Block) := y.onBranch_comm (b := .zero) (c := .one) (by decide)
  simp only [whiten, Block.xorBranch_eq_onBranch, hcomm]
  simp only [← Block.xorBranch_eq_onBranch, Block.xorBranch_xorBranch]

end Rounds

/-- Settles O34: the whitening undoes itself, and the steps are undone in the other order. -/
theorem decryptInvertsEncrypt : Obligations.DecryptInvertsEncrypt := by
  refine fun rk x => ⟨?_, ?_⟩
  · rw [decryptBlock, encryptBlock, whiten_involutive]
    exact foldl_reverse_undo (decStep_leftInverse rk) [0, 1, 2, 3, 4, 5, 6, 7] x
  · rw [encryptBlock, decryptBlock]
    have hsteps := foldl_reverse_undo (decStep_rightInverse rk) [7, 6, 5, 4, 3, 2, 1, 0] (whiten rk x)
    exact (congrArg (whiten rk) hsteps).trans (whiten_involutive rk x)

/-! ### The step -/

/-- A step runs the operation whose word it fetches, and the edge passes. -/
theorem step_of_fetch {s : State} {w : OpWord} {i : Instr} (hf : s.fetch = .word w) (hd : decode w = .ok i) :
    step s = passEdge (exec i s) := by
  simp only [step, hf, hd]

/-- A ready CORE to which nothing is presented stays as it is (R173). -/
theorem step_of_quiet {s : State} (hr : s.ports.rst = false) (hd : s.direct = none) (ho : s.op = .idle)
    (hv : s.ports.cmdValid = false) : step s = .next s.pastEdge := by
  simp [step, State.fetch_of_ready hr hd ho, hv]

/-- A ready CORE runs the command presented to it (R173). -/
theorem step_of_command {s : State} (hr : s.ports.rst = false) (hd : s.direct = none) (ho : s.op = .idle)
    (hv : s.ports.cmdValid = true) : step s = passEdge (exec (decodeCmd s.ports.cmdOp) s) :=
  step_of_fetch (w := .cmd s.ports.cmdOp) (by rw [State.fetch_of_ready hr hd ho, if_pos hv]) rfl

/-- Settles O7: by what the edge brings. -/
theorem stepRunsTheFetchedOperation : Obligations.StepRunsTheFetchedOperation := by
  refine fun s hr => ⟨fun hd ho w i hw hi => ?_, fun hd ho hv i hi => ?_, fun hd ho hv => ?_,
    fun w i hd hi => step_of_fetch (State.fetch_of_direct hr hd) hi⟩
  · exact step_of_fetch (w := .uop w) (by rw [State.fetch_of_busy hr hd ho, programFetch, hw]) hi
  · cases hi
    exact step_of_command hr hd ho hv
  · exact step_of_quiet hr hd ho hv

/-- A step of a busy CORE before END: the data registers that a micro-operation writes, and `UPC` (R159). -/
theorem step_beforeEnd {s : State} (hr : s.ports.rst = false) (hd : s.direct = none) (ho : s.op ≠ .idle)
    (hu : s.upc.toNat < lastUpc s.op) :
    ∃ x k rk, step s = .next { s with x := x, k := k, rk := rk, upc := s.upc + 1 }.pastEdge := by
  obtain ⟨i, hi, hw, hf, hend⟩ := programInstr_legal ho (Nat.le_of_lt hu)
  obtain ⟨t, ht⟩ := exec_wellFormed s hw
  have hne : i ≠ .endCmd := fun h => Nat.ne_of_lt hu (hend.mp h)
  have hstep := step_of_program hr hd ho hi ht
  rw [exec_uop_frame hf hne ht] at hstep
  exact ⟨t.x, t.k, t.rk, hstep⟩

/-- Settles O45: before END only data registers and `UPC` are written. -/
theorem responseOnlyAtEnd : Obligations.ResponseOnlyAtEnd := by
  intro s hr hd ho hu
  obtain ⟨x, k, rk, hstep⟩ := step_beforeEnd hr hd ho hu
  exact ⟨_, hstep, rfl, rfl, rfl, rfl, rfl, rfl⟩

/-- Settles O41: a ready CORE takes any command code, and a busy one is at a place of its micro-program. -/
theorem stepNeverStops : Obligations.StepNeverStops := by
  intro s h
  by_cases hr : s.ports.rst = true
  · exact ⟨_, step_of_reset hr⟩
  have hr : s.ports.rst = false := by simpa using hr
  by_cases ho : s.op = .idle
  · by_cases hv : s.ports.cmdValid = true
    · obtain ⟨t, ht⟩ := exec_wellFormed s (encode_decodeCmd s.ports.cmdOp).1
      exact ⟨t.pastEdge, by rw [step_of_command hr h.no_direct ho hv, ht]; rfl⟩
    · exact ⟨_, step_of_quiet hr h.no_direct ho (by simpa using hv)⟩
  · obtain ⟨i, hi, hw, -⟩ := programInstr_legal ho (h.upc_range ho)
    obtain ⟨t, ht⟩ := exec_wellFormed s hw
    exact ⟨_, step_of_program hr h.no_direct ho hi ht⟩

/-! ### Runs -/

/-- The micro-steps before END, counted from a place of the micro-program (R159). -/
theorem stepN_beforeEnd {s : State} (hd : s.direct = none) (ho : s.op ≠ .idle) {k : Nat}
    (hk : s.upc.toNat + k ≤ lastUpc s.op) (hr : s.NoResetFor k) :
    ∃ u, stepN k s = .next u ∧ u.op = s.op ∧ u.upc.toNat = s.upc.toNat + k ∧ u.direct = none ∧
      u.host = s.host.drop k := by
  induction k with
  | zero => exact ⟨s, rfl, rfl, rfl, hd, rfl⟩
  | succ k ih =>
    obtain ⟨u, hrun, hop, hupc, hdir, hhost⟩ := ih (by omega) (hr.mono (Nat.le_succ k))
    have hu : u.upc.toNat < lastUpc u.op := by rw [hop]; omega
    obtain ⟨x, kb, rk, hstep⟩ :=
      step_beforeEnd (State.noReset_now (hr.drop (n := 1) hhost)) hdir (hop ▸ ho) hu
    refine ⟨_, (stepN_add hrun 1).trans (stepN_succ hstep 0), hop, ?_, rfl, ?_⟩
    · rw [State.pastEdge_upc, upc_succ_toNat hu, hupc, Nat.add_assoc]
    · rw [State.pastEdge_host, hhost, List.tail_drop]

/-- A run that comes to the END of a command, and END (R153). -/
theorem stepN_thenEnd {s t : State} {n : Nat} (hrun : stepN n s = .next t) (hhost : t.host = s.host.drop n)
    (hr : s.NoResetFor (n + 1)) (hd : t.direct = none) (ho : t.op ≠ .idle) (hu : t.upc.toNat = lastUpc t.op) :
    stepN (n + 1) s = .next t.endCommand.pastEdge :=
  (stepN_add hrun 1).trans (stepN_succ (step_endCmd (State.noReset_now (hr.drop hhost)) hd ho hu) 0)

/-- Settles O46: the micro-steps before END, and END. -/
theorem everyCommandEnds : Obligations.EveryCommandEnds := by
  intro s hd ho hu hr
  have hbefore k (hk : k ≤ lastUpc s.op - s.upc.toNat) :=
    stepN_beforeEnd hd ho (k := k) (by omega) (hr.mono (by omega))
  constructor
  · obtain ⟨u, hrun, hop, hupc, hdir, hhost⟩ := hbefore _ le_rfl
    have hlast : u.upc.toNat = lastUpc u.op := by rw [hop]; omega
    exact ⟨_, stepN_thenEnd hrun hhost hr hdir (hop ▸ ho) hlast, rfl, rfl, rfl, rfl⟩
  · intro k hk
    obtain ⟨u, hrun, hop, hupc, -, -⟩ := hbefore k hk
    exact ⟨u, hrun, hop, hupc⟩

/-- The edge at which `ENC` or `DEC` is presented to a ready CORE (R175, R192). -/
theorem step_acceptBlock {s : State} {op : Op} (hb : op = .enc ∨ op = .dec) (hr : s.ports.rst = false)
    (hd : s.direct = none) (ho : s.op = .idle) (hv : s.ports.cmdValid = true) (hc : s.ports.cmdOp = op.code) :
    step s = .next (s.acceptBlock op).pastEdge := by
  rw [step_of_command hr hd ho hv, hc]
  rcases hb with rfl | rfl <;> exact congrArg passEdge (if_pos ho)

/-- A block command without a key faults at its edge (R192). -/
theorem step_blockCommand_noKey {s : State} {op : Op} (hb : op = .enc ∨ op = .dec) (hr : s.ports.rst = false)
    (hd : s.direct = none) (ho : s.op = .idle) (hv : s.ports.cmdValid = true) (hc : s.ports.cmdOp = op.code)
    (hk : s.keyValid = false) :
    step s = .next { s with rspErr := 0b10#2, rspValid := true, host := s.host.tail } := by
  rw [step_acceptBlock hb hr hd ho hv hc, State.acceptBlock, if_neg (Bool.eq_false_iff.mp hk)]
  simp only [State.faultResponse, State.pastEdge, hd]
  rfl

/-- The micro-program of a block command whose 106 operations take `X` to `y`, and END (R153). -/
theorem stepN_blockProgram {s : State} {y : Block} (hb : s.op = .enc ∨ s.op = .dec) (hu : s.upc = 0)
    (hd : s.direct = none) (hr : s.NoResetFor 107) (hy : blockRun s.rkWord s.op 106 0 s.x = some y) :
    stepN 107 s = .next
      { s with
        x := y, rspData := portOfBlock y, op := .idle
        rspValid := true, rspErr := 0b00#2, upc := 0, host := s.host.drop 107 } := by
  have ho := Op.ne_idle_of_block hb
  have hlast : lastUpc s.op = 106 := by rcases hb with hop | hop <;> rw [hop] <;> rfl
  have hrun := stepN_blockRun (k := 106) hd ho (hr.mono (by decide)) (by rw [hu]; decide) (by rw [hu]; exact hy)
  refine (stepN_thenEnd hrun rfl hr hd ho ?_).trans ?_
  · rw [hlast, hu]
    rfl
  · simp only [State.endCommand, State.pastEdge, if_pos hb, if_neg (Op.ne_keyexp_of_block hb),
      List.tail_drop, hd]
    rfl

/-- A block command with a key: the acceptance, and the micro-program on the block sampled (R160, R161). -/
theorem stepN_blockCommand {s : State} {op : Op} {y : Block} (hb : op = .enc ∨ op = .dec)
    (hr : s.NoResetFor 108) (hd : s.direct = none) (ho : s.op = .idle) (hv : s.ports.cmdValid = true)
    (hc : s.ports.cmdOp = op.code) (hk : s.keyValid = true)
    (hy : blockRun s.rkWord op 106 0 (blockOfPort s.ports.blk) = some y) :
    stepN 108 s = .next
      { s with
        x := y, rspData := portOfBlock y
        rspValid := true, rspErr := 0b00#2, upc := 0, host := s.host.drop 108 } := by
  have haccept := step_acceptBlock hb (State.noReset_now hr) hd ho hv hc
  rw [State.acceptBlock, if_pos hk] at haccept
  rw [stepN_succ haccept 107]
  refine (stepN_blockProgram hb rfl rfl (State.noReset_tail hr rfl) hy).trans ?_
  simp only [State.pastEdge, State.startCommand, List.drop_tail, ho, hd]

/-- Settles O36: the operations of ENC before its END compute `encryptBlock`. -/
theorem encEncryptsTheBlock : Obligations.EncEncryptsTheBlock := by
  intro s ho hd hv hc hr
  have hrun := blockRun_enc s.rkWord (blockOfPort s.ports.blk)
  exact ⟨fun hk => stepN_blockCommand (.inl rfl) hr hd ho hv hc hk hrun,
    step_blockCommand_noKey (.inl rfl) (State.noReset_now hr) hd ho hv hc⟩

/-- Settles O37: the operations of DEC before its END compute `decryptBlock`. -/
theorem decDecryptsTheBlock : Obligations.DecDecryptsTheBlock := by
  intro s ho hd hv hc hr
  have hrun := blockRun_dec s.rkWord (blockOfPort s.ports.blk)
  exact ⟨fun hk => stepN_blockCommand (.inr rfl) hr hd ho hv hc hk hrun,
    step_blockCommand_noKey (.inr rfl) (State.noReset_now hr) hd ho hv hc⟩

end Sys2Proof.Machine
end

section
/-! PROOF. The family 45_host_interface.md: the output ports, the acceptance of a command, what a busy CORE
does not look at, and the CORE as a function of its command history. -/

namespace Sys2Proof.Machine

/-! ### The output ports -/

theorem State.cmdReadyO_iff (s : State) : s.cmdReadyO = true ↔ s.op = .idle := beq_iff_eq

theorem State.busyO_iff (s : State) : s.busyO = true ↔ s.op ≠ .idle := bne_iff_ne

theorem Op.code_eq_zero_iff (op : Op) : op.code = 0b00#2 ↔ op = .idle := by cases op <;> decide

/-- Settles O11: the code of `OP` is `00` for the idle CORE alone, and the other ports are registers. -/
theorem outputPortsAreFunctionsOfRegisters : Obligations.OutputPortsAreFunctionsOfRegisters := fun s =>
  ⟨s.cmdReadyO_iff.trans s.op.code_eq_zero_iff.symm, s.busyO_iff.trans (not_congr s.op.code_eq_zero_iff.symm),
    rfl, rfl, rfl, rfl, rfl⟩

/-! ### A command as an operation -/

theorem State.onAcceptance_of_idle {s : State} (ho : s.op = .idle) (accept : State → State) :
    s.onAcceptance accept = .next (accept s) := if_pos ho

theorem State.onAcceptance_of_busy {s : State} (ho : s.op ≠ .idle) (accept : State → State) :
    s.onAcceptance accept = .next s := if_neg ho

theorem State.acceptBlock_of_key {s : State} (hk : s.keyValid = true) (op : Op) :
    s.acceptBlock op = (s.startCommand op).setX (blockOfPort s.ports.blk) := if_pos hk

/-- A command presented to a busy CORE has not happened (R172). -/
theorem exec_cmd_of_busy {s : State} {i : Instr} (hf : i.format = .cmd) (ho : s.op ≠ .idle) :
    exec i s = .next s := by
  cases i
  case illegal => exact State.onAcceptance_of_busy ho (·.faultResponse errIllegalCmd)
  case keyexp => exact State.onAcceptance_of_busy ho State.acceptKeyexp
  case enc => exact State.onAcceptance_of_busy ho (State.acceptBlock .enc)
  case dec => exact State.onAcceptance_of_busy ho (State.acceptBlock .dec)
  all_goals cases hf

/-- Settles O28: each of the four commands asks first whether the CORE is ready. -/
theorem commandsWhileBusyDoNothing : Obligations.CommandsWhileBusyDoNothing := fun _ _ => exec_cmd_of_busy

/-- Settles O25: `acceptKeyexp`, with the words of `key_i` written out. -/
theorem keyexpAcceptance : Obligations.KeyexpAcceptance :=
  ⟨rfl, fun _ ho => State.onAcceptance_of_idle ho State.acceptKeyexp⟩

/-- Settles O26: `acceptBlock` with a key, with the words of `blk_i` written out. -/
theorem blockCommandAcceptance : Obligations.BlockCommandAcceptance := by
  refine ⟨rfl, rfl, fun s ho hk => ?_⟩
  have haccept op : s.onAcceptance (State.acceptBlock op) =
      .next ((s.startCommand op).setX (blockOfPort s.ports.blk)) := by
    rw [State.onAcceptance_of_idle ho, State.acceptBlock_of_key hk]
  exact ⟨haccept .enc, haccept .dec⟩

/-! ### What a busy CORE does not look at -/

@[simp] theorem State.withPorts_ports (s : State) (f : Ports → Ports) : (s.withPorts f).ports = f s.ports := rfl
@[simp] theorem State.withPorts_op (s : State) (f : Ports → Ports) : (s.withPorts f).op = s.op := rfl
@[simp] theorem State.withPorts_upc (s : State) (f : Ports → Ports) : (s.withPorts f).upc = s.upc := rfl
@[simp] theorem State.withPorts_direct (s : State) (f : Ports → Ports) : (s.withPorts f).direct = s.direct := rfl

/-- The port values of an edge are gone when it has passed. -/
@[simp] theorem State.pastEdge_withPorts (s : State) (f : Ports → Ports) :
    (s.withPorts f).pastEdge = s.pastEdge := rfl

/-- What a busy CORE fetches depends on `rst_i` and on no other port. -/
theorem State.fetch_withPorts_of_busy {s : State} (ho : s.op ≠ .idle) {p : Ports} (hp : p.rst = s.ports.rst) :
    (s.withPorts fun _ => p).fetch = s.fetch := by
  simp only [State.fetch, withPorts_ports, withPorts_direct, withPorts_op, withPorts_upc, hp, ho, if_false]

/-- In a busy CORE no operation reads a port (R172). -/
theorem exec_withPorts_of_busy {s : State} (ho : s.op ≠ .idle) (i : Instr) (p : Ports) :
    passEdge (exec i (s.withPorts fun _ => p)) = passEdge (exec i s) := by
  have ho' : (s.withPorts fun _ => p).op ≠ .idle := ho
  cases i
  case illegal | keyexp | enc | dec =>
    rw [exec_cmd_of_busy rfl ho', exec_cmd_of_busy rfl ho]
    rfl
  case kst g => simp only [exec, execKst]; split <;> rfl
  case kperm c => simp only [exec, execKperm]; split <;> rfl
  case ark g r b => simp only [exec, execArk]; split <;> [split <;> rfl; rfl]
  all_goals rfl

/-- A step in a reset or of a busy CORE depends on no port but `rst_i` (R172, R220). -/
theorem step_withPorts {s : State} (h : s.ports.rst = true ∨ s.op ≠ .idle) {p : Ports}
    (hp : p.rst = s.ports.rst) : step (s.withPorts fun _ => p) = step s := by
  rcases h with hr | ho
  · rw [step_of_reset hr, step_of_reset (s := s.withPorts fun _ => p) (hp.trans hr)]
    rfl
  · simp only [step, State.fetch_withPorts_of_busy ho hp, exec_withPorts_of_busy ho, State.pastEdge_withPorts]
    cases s.fetch <;> rfl

/-- Settles O9: a busy CORE fetches no command, and no micro-operation reads a port. -/
theorem busyCoreIgnoresThePorts : Obligations.BusyCoreIgnoresThePorts := by
  refine fun s => ⟨s.cmdReadyO_iff, fun hbusy _ p hp => step_withPorts (.inr fun ho => ?_) hp⟩
  rw [s.cmdReadyO_iff.mpr ho] at hbusy
  cases hbusy

/-! ### The four cases of an acceptance -/

theorem State.pastEdge_of_direct_none {s : State} (hd : s.direct = none) :
    s.pastEdge = { s with host := s.host.tail } := by
  rw [State.pastEdge, ← hd]

/-- The reserved code faults at its edge, whatever `KEY_VALID` is (R191). -/
theorem step_illegal {s : State} (hr : s.ports.rst = false) (hd : s.direct = none) (ho : s.op = .idle)
    (hv : s.ports.cmdValid = true) (hc : s.ports.cmdOp = 0b00#2) :
    step s = .next { s with rspErr := 0b01#2, rspValid := true, host := s.host.tail } := by
  rw [step_of_command hr hd ho hv, hc]
  refine (congrArg passEdge (State.onAcceptance_of_idle ho (·.faultResponse errIllegalCmd))).trans ?_
  exact congrArg _ (State.pastEdge_of_direct_none (s := s.faultResponse errIllegalCmd) hd)

/-- A block command with a key starts at its edge (R175). -/
theorem step_blockCommand_key {s : State} {op : Op} (hb : op = .enc ∨ op = .dec) (hr : s.ports.rst = false)
    (hd : s.direct = none) (ho : s.op = .idle) (hv : s.ports.cmdValid = true) (hc : s.ports.cmdOp = op.code)
    (hk : s.keyValid = true) :
    step s = .next
      { s with x := blockOfPort s.ports.blk, rspValid := false, op := op, upc := 0, host := s.host.tail } := by
  rw [step_acceptBlock hb hr hd ho hv hc, State.acceptBlock_of_key hk]
  exact congrArg _ (State.pastEdge_of_direct_none (s := (s.startCommand op).setX _) hd)

/-- Settles O8: without a command the edge passes, and each code has its lemma. -/
theorem acceptanceByCodeAndKeyValid : Obligations.AcceptanceByCodeAndKeyValid := by
  intro s hd
  refine ⟨fun hbusy p hp => step_withPorts hbusy hp,
    fun hr ho => ⟨fun hv => ?_, fun hv => ⟨?_, ?_, ?_, ?_, ?_⟩⟩⟩
  · rw [step_of_quiet hr hd ho hv, State.pastEdge_of_direct_none hd]
  · exact step_illegal hr hd ho hv
  · intro hc
    rw [step_acceptKeyexp hr hd ho hv hc, State.pastEdge_of_direct_none (s := s.acceptKeyexp) hd]
    rfl
  · rintro (hc | hc)
    · exact step_blockCommand_noKey (.inl rfl) hr hd ho hv hc
    · exact step_blockCommand_noKey (.inr rfl) hr hd ho hv hc
  · exact step_blockCommand_key (.inl rfl) hr hd ho hv
  · exact step_blockCommand_key (.inr rfl) hr hd ho hv

/-! ### The words of the table that a block command reads -/

section Tables
variable {rk rk' : KeyTable} (h : ∀ g j, g ≤ 16 → j ≤ 5 → rk g j = rk' g j)
include h

theorem keyPair_congr {g r : Nat} (hg : g ≤ 16) (hr : r ≤ 2) : keyPair rk g r = keyPair rk' g r := by
  rw [keyPair, keyPair, h g _ hg (by omega), h g _ hg (by omega)]

/-- A legal ARK reads words 0 to 5 of groups 0 to 16 (R85, R86). -/
theorem blockEffect_congr (x : Block) (i : Instr) : blockEffect rk x i = blockEffect rk' x i := by
  cases i
  case ark g r b =>
    simp only [blockEffect, groupOk, roundOk, Bool.and_eq_true, decide_eq_true_eq]
    split
    · rename_i hok
      rw [keyPair_congr h hok.1 hok.2]
    · rfl
  all_goals rfl

theorem blockRun_congr (op : Op) (k n : Nat) (x : Block) : blockRun rk op k n x = blockRun rk' op k n x := by
  induction k generalizing n x with
  | zero => rfl
  | succ k ih => simp only [blockRun, blockEffect_congr h, ih]

end Tables

/-! ### One command of the history -/

/-- The abstract state of R182 describes a ready CORE: the same `KEY_VALID`, and the same table if there is a
key. -/
structure State.Refines (s : State) (a : Abstract) : Prop where
  ready : s.op = .idle
  no_direct : s.direct = none
  valid : a.valid = s.keyValid
  table : a.valid = true → ∀ g j, g ≤ 16 → j ≤ 5 → a.table g j = s.rkWord g j

/-- What a command that leaves the key alone comes back to. -/
theorem State.Refines.of_same_key {s t : State} {a : Abstract} (h : s.Refines a) (ho : t.op = .idle)
    (hd : t.direct = none) (hk : t.keyValid = s.keyValid) (hrk : t.rk = s.rk) (hn : t.resets = s.resets) :
    t.Refines a where
  ready := ho
  no_direct := hd
  valid := h.valid.trans hk.symm
  table hv g j hg hj := (h.table hv g j hg hj).trans (State.rkWord_congr hrk hn g j).symm

/-- The CORE with the command on its ports at the coming edge, as `serveCmd` presents it. -/
def State.presenting (s : State) (c : HostCmd) : State := { s with host := [c.ports] }

theorem serveCmd_eq (s : State) (c : HostCmd) : serveCmd c s = stepN (microSteps s c + 1) (s.presenting c) := rfl

theorem State.presenting_noReset (s : State) (c : HostCmd) (n : Nat) : (s.presenting c).NoResetFor n := by
  intro p hp
  obtain rfl := List.mem_singleton.mp (List.mem_of_mem_take hp)
  cases c <;> rfl

/-- Serving `c` from `s` comes to a ready CORE that shows the response `r` and that `a` describes. -/
def State.Answers (s : State) (c : HostCmd) (a : Abstract) (r : Response) : Prop :=
  ∃ t, serveCmd c s = .next t ∧ t.rspValidO = true ∧ t.responseTo c = r ∧ t.Refines a

section OneCommand
variable {s : State} {a : Abstract} (h : s.Refines a)
include h

/-- A command that faults at its edge leaves `KEY_VALID` and the table alone (R193). -/
theorem State.Refines.answers_of_fault {c : HostCmd} {code : BitVec 2} {r : Response} (hm : microSteps s c = 0)
    (hstep : step (s.presenting c) = .next { s with rspErr := code, rspValid := true, host := [] })
    (hr : ({ s with rspErr := code, rspValid := true, host := [] } : State).responseTo c = r) :
    s.Answers c a r := by
  refine ⟨_, ?_, rfl, hr, h.of_same_key h.ready h.no_direct rfl rfl rfl⟩
  rw [serveCmd_eq, hm, stepN_succ hstep, stepN]

theorem State.Refines.answers_illegal : s.Answers .illegal a { err := errIllegalCmd, data := none } :=
  h.answers_of_fault rfl (step_illegal (s := s.presenting .illegal) rfl h.no_direct h.ready rfl rfl) rfl

/-- After a KEYEXP the table is the key's schedule, whatever was there before (R124). -/
theorem State.Refines.answers_keyexp (key : BitVec 128) :
    s.Answers (.keyexp key) { table := keySchedule (keyOfPort key), valid := true }
      { err := errOk, data := none } := by
  obtain ⟨t, hrun, hwords, ht⟩ := keyexpBuildsTheSchedule (s.presenting (.keyexp key)) h.ready h.no_direct
    rfl rfl (s.presenting_noReset _ 36)
  refine ⟨t, hrun, by rw [ht]; rfl, by rw [ht]; rfl, ?_⟩
  exact
    { ready := by rw [ht]; exact h.ready
      no_direct := by rw [ht]; exact h.no_direct
      valid := by rw [ht]
      table := fun _ g j hg hj => (hwords g j hg hj).symm }

/-- A block command: the micro-program reads the abstract table, and without a key there is none (R160, R161,
R192). -/
theorem State.Refines.answers_block {c : HostCmd} {op : Op} {y : Block} (hb : op = .enc ∨ op = .dec)
    (hm : microSteps s c = if s.keyValid then 107 else 0) (hv : c.ports.cmdValid = true)
    (hc : c.ports.cmdOp = op.code)
    (hresp : ∀ t : State,
      t.responseTo c = { err := t.rspErrO, data := if t.rspErrO = errOk then some t.blkO else none })
    (hy : blockRun a.table op 106 0 (blockOfPort c.ports.blk) = some y) :
    s.Answers c a
      (if a.valid then { err := errOk, data := some (portOfBlock y) } else { err := errNoKey, data := none }) := by
  have hnr := s.presenting_noReset c 108
  cases hk : s.keyValid with
  | true =>
    have ha : a.valid = true := h.valid.trans hk
    rw [blockRun_congr (h.table ha)] at hy
    have hrun := stepN_blockCommand hb hnr h.no_direct h.ready hv hc hk hy
    have hserve : serveCmd c s = stepN 108 (s.presenting c) := by
      rw [serveCmd_eq, hm, hk]
      rfl
    rw [if_pos ha]
    exact ⟨_, hserve.trans hrun, rfl, hresp _, h.of_same_key h.ready h.no_direct rfl rfl rfl⟩
  | false =>
    have ha : ¬a.valid = true := by rw [h.valid, hk]; decide
    rw [if_neg ha]
    exact h.answers_of_fault (by rw [hm, hk]; rfl)
      (step_blockCommand_noKey hb (State.noReset_now hnr) h.no_direct h.ready hv hc hk) (hresp _)

/-- Every command is answered as in R182, and the CORE is ready for the next. -/
theorem State.Refines.answers_serve (c : HostCmd) : s.Answers c (a.serve c).1 (a.serve c).2 := by
  cases c with
  | illegal => exact h.answers_illegal
  | keyexp key => exact h.answers_keyexp key
  | enc blk =>
    have hanswer := h.answers_block (c := .enc blk) (.inl rfl) rfl rfl rfl (fun _ => rfl)
      (blockRun_enc a.table (blockOfPort blk))
    simpa only [Abstract.serve, apply_ite Prod.fst, apply_ite Prod.snd, ite_self] using hanswer
  | dec blk =>
    have hanswer := h.answers_block (c := .dec blk) (.inr rfl) rfl rfl rfl (fun _ => rfl)
      (blockRun_dec a.table (blockOfPort blk))
    simpa only [Abstract.serve, apply_ite Prod.fst, apply_ite Prod.snd, ite_self] using hanswer

end OneCommand

/-! ### The command history -/

theorem State.Refines.serves {s : State} {a : Abstract} (h : s.Refines a) (cs : List HostCmd) :
    Serves s cs (a.responses cs) := by
  induction cs generalizing s a with
  | nil => rfl
  | cons c cs ih =>
    obtain ⟨t, hserve, hvalid, hresp, ht⟩ := h.answers_serve c
    exact ⟨t, _, hserve, hvalid, t.cmdReadyO_iff.mpr ht.ready, congrArg (· :: _) hresp.symm, ih ht⟩

/-- Settles O38: by induction on the history, with `State.Refines` kept by every command. -/
theorem coreRefinesTheTransactions : Obligations.CoreRefinesTheTransactions :=
  fun _ _ cs ho hd hv ht => State.Refines.serves ⟨ho, hd, hv, ht⟩ cs

end Sys2Proof.Machine
end

section
/-! PROOF. The family 60_exceptions.md: the two fault responses of R193. -/

namespace Sys2Proof.Machine

theorem State.acceptBlock_of_noKey {s : State} (hk : s.keyValid = false) (op : Op) :
    s.acceptBlock op = s.faultResponse errNoKey := if_neg (Bool.eq_false_iff.mp hk)

/-- Settles O24: an accepted reserved code is the fault response, which reads neither `KEY_VALID` nor a port. -/
theorem reservedCodeFaults : Obligations.ReservedCodeFaults :=
  ⟨rfl, fun _ ho => State.onAcceptance_of_idle ho (·.faultResponse errIllegalCmd)⟩

/-- Settles O27: `acceptBlock` without a key is the fault response, for both block commands. -/
theorem noKeyFault : Obligations.NoKeyFault := by
  intro s ho hk
  have haccept op : s.onAcceptance (State.acceptBlock op) = .next (s.faultResponse errNoKey) := by
    rw [State.onAcceptance_of_idle ho, State.acceptBlock_of_noKey hk]
  exact ⟨haccept .enc, haccept .dec⟩

end Sys2Proof.Machine
end
